-- ==== Sys2Proof/Word.lean ====
section
/-! DEFINITION. The word types of the decoder block: 64-bit registers and addresses (R10: ADDR_W, D_W and
LEN_W are 64 bits), 8-bit bytes and 4-bit nibbles (R11). Bit 0 is the least significant bit (R11); every value
is unsigned (R12). -/

namespace Sys2Proof

/-- A 64-bit block register, address or D field (R10). -/
abbrev Word := BitVec 64

/-- One byte of the input buffer (R11). -/
abbrev Byte := BitVec 8

/-- A nibble: ICODE, IFUN, or a register code, which the block copies and never interprets (R21). -/
abbrev Nibble := BitVec 4

end Sys2Proof
end

