-- ==== Sys2Proof/Config.lean ====
section
/-! DEFINITION. The block's parameters (R10) and the model's free values. The OPEN parameter MAX_LEN is
an argument of the machine after reset (State.resetWith, log entry 3); the wrapper's OPEN parameters are arguments of the
formatter (Machine/Formatter.lean). -/

namespace Sys2Proof.Config

/-- MAX_SPAN: the longest encoded instruction, in bytes (R10, R28). -/
def maxSpan : Nat := 10

/-- MIN_SPAN: the shortest encoded instruction, in bytes (R10). -/
def minSpan : Nat := 1

/-- INV_SPAN: how many bytes an invalid encoding consumes (R10, R89). -/
def invSpan : Nat := 8

/-- NREG: the number of named register codes; code 15 is the "no register" sentinel (R10, R21). -/
def nReg : Nat := 15

/-- The "no register" sentinel 0xF (R21, R27). -/
def noReg : Nibble := 0xF

/-- MAX_LEN of the block at hand: an OPEN parameter, 0 to 2^64 - 1 (R10). No body: nothing in Lean knows a value of it, so
a run from reset is of a block with any MAX_LEN (log entry 3). -/
opaque maxLen : Word

/-- STEP_LATENCY less one: an OPEN parameter of which R10 says only that it is finite and at least 1.
No body: nothing in Lean knows a value of it. No rule depends on it (R320; log entry 13). -/
opaque stepLatencyLessOne : Nat

/-- STEP_LATENCY, the cycles a command takes (R10, R311). The model is untimed and never reads it (R320). -/
def stepLatency : Nat := stepLatencyLessOne + 1

/-- Which of a decode step's reads an engine read is: one of the leading-zero skip (R113), or one of the
instruction's own bytes (R115 to R119). A step reads an index at most once for each. -/
inductive ReadKind where
  | skip
  | decode
deriving DecidableEq, Repr

/-- FREE VALUE: the byte an engine read returns at an index the host has written while the stream was running:
"any byte value" (R71, U5). The arguments are the draw counter, the kind of read and the index, so that every read
has a value of its own. No body (log entry 5). -/
opaque freeByte : Nat → ReadKind → Nat → Byte

/-- FREE VALUE: what a host read of a register returns while STATUS.BUSY = 1: "any value" (R311 (a), U6).
The argument is the draw counter. No body (log entry 6). -/
opaque freeWord : Nat → Word

end Sys2Proof.Config
end

