-- ==== Sys2Proof/Syntax.lean ====
section
/-! DEFINITION. The instructions of the decoded set as data: one constructor per row of spec/opcode_table.json
(R93), the invalid catch-all among them (R221), and the five formats (R88). Register codes are 4-bit nibbles that
the block copies unchecked, 0xF included (R87, R97), so no operand but `quad`'s first byte has an illegal value. -/

namespace Sys2Proof

/-- The format tag FMT (R88): the byte layout of a class. -/
inductive Fmt where
  | B | BR | BRD | BD | INV
deriving DecidableEq, Repr

/-- An instruction of the stream (R93). `ra` is the high nibble of the register byte and `rb` the low one (R87);
`d` is the 8-byte field (R90). -/
inductive Instr where
  /-- 0x00 (R150) -/
  | halt
  /-- 0x10 (R151) -/
  | nop
  /-- 0x20 (R161) -/
  | rrmovq (ra rb : Nibble)
  /-- 0x21 (R162) -/
  | cmovle (ra rb : Nibble)
  /-- 0x22 (R163) -/
  | cmovl (ra rb : Nibble)
  /-- 0x23 (R164) -/
  | cmove (ra rb : Nibble)
  /-- 0x24 (R165) -/
  | cmovne (ra rb : Nibble)
  /-- 0x25 (R166) -/
  | cmovge (ra rb : Nibble)
  /-- 0x26 (R167) -/
  | cmovg (ra rb : Nibble)
  /-- 0x30 (R168) -/
  | irmovq (ra rb : Nibble) (d : Word)
  /-- 0x40 (R169) -/
  | rmmovq (ra rb : Nibble) (d : Word)
  /-- 0x50 (R170) -/
  | mrmovq (ra rb : Nibble) (d : Word)
  /-- 0x60 (R181) -/
  | addq (ra rb : Nibble)
  /-- 0x61 (R182) -/
  | subq (ra rb : Nibble)
  /-- 0x62 (R183) -/
  | andq (ra rb : Nibble)
  /-- 0x63 (R184) -/
  | xorq (ra rb : Nibble)
  /-- 0x64: valid, without a mnemonic (R185, R95) -/
  | op4 (ra rb : Nibble)
  /-- 0x65: valid, without a mnemonic (R186, R95) -/
  | op5 (ra rb : Nibble)
  /-- 0x66: valid, without a mnemonic (R187, R95) -/
  | op6 (ra rb : Nibble)
  /-- 0x70 (R192) -/
  | jmp (d : Word)
  /-- 0x71 (R193) -/
  | jle (d : Word)
  /-- 0x72 (R194) -/
  | jl (d : Word)
  /-- 0x73 (R195) -/
  | je (d : Word)
  /-- 0x74 (R196) -/
  | jne (d : Word)
  /-- 0x75 (R197) -/
  | jge (d : Word)
  /-- 0x76 (R198) -/
  | jg (d : Word)
  /-- 0x80 (R199) -/
  | call (d : Word)
  /-- 0x90 (R200) -/
  | ret
  /-- 0xA0 (R211) -/
  | pushq (ra rb : Nibble)
  /-- 0xB0 (R212) -/
  | popq (ra rb : Nibble)
  /-- Any of the 226 invalid first bytes, with the 7 bytes of its recovery slot (R220, R221); `slot` holds the
  first of them in its low byte. -/
  | quad (b0 : Byte) (slot : BitVec 56)
deriving DecidableEq, Repr

end Sys2Proof
end

