-- ==== Sys2Proof/WellFormed.lean ====
section
/-! DEFINITION. Which terms of Instr stand for an instruction of the stream. The only term that can be ill-formed is
`quad` with a VALID first byte: the spec gives that byte to another row (R220). Every register code and every D value
is legal (R87, R90). -/

namespace Sys2Proof

/-- The 30 valid first-byte values (R93). -/
def validFirstBytes : List Byte :=
  [0x00, 0x10] ++ [0x20, 0x21, 0x22, 0x23, 0x24, 0x25, 0x26] ++ [0x30, 0x40, 0x50] ++
  [0x60, 0x61, 0x62, 0x63, 0x64, 0x65, 0x66] ++ [0x70, 0x71, 0x72, 0x73, 0x74, 0x75, 0x76] ++
  [0x80, 0x90, 0xA0, 0xB0]

/-- The check: a `quad` has an invalid first byte (R220). -/
def Instr.wellFormed : Instr → Bool
  | .quad b0 _ => !validFirstBytes.contains b0
  | .halt | .nop | .ret => true
  | .rrmovq _ _ | .cmovle _ _ | .cmovl _ _ | .cmove _ _ | .cmovne _ _ | .cmovge _ _ | .cmovg _ _ => true
  | .irmovq _ _ _ | .rmmovq _ _ _ | .mrmovq _ _ _ => true
  | .addq _ _ | .subq _ _ | .andq _ _ | .xorq _ _ | .op4 _ _ | .op5 _ _ | .op6 _ _ => true
  | .jmp _ | .jle _ | .jl _ | .je _ | .jne _ | .jge _ | .jg _ | .call _ => true
  | .pushq _ _ | .popq _ _ => true

end Sys2Proof
end

