-- ==== Sys2Proof/Decode.lean ====
section
/-! DEFINITION. The encoding (spec/30_encoding.md): the byte order, the class table, validity and length from the
first byte alone, the layouts of the five formats, the decoder and, after it, the encoder. -/

namespace Sys2Proof

/-! ### Bytes, nibbles and byte order -/

/-- The high nibble of a byte, bits 7:4 (R11). -/
def hiNibble (b : Byte) : Nibble := b.extractLsb' 4 4

/-- The low nibble of a byte, bits 3:0 (R11). -/
def loNibble (b : Byte) : Nibble := b.extractLsb' 0 4

/-- A byte from its two nibbles: ICODE and IFUN (R81), or rA and rB (R87). -/
def byteOf (hi lo : Nibble) : Byte := hi ++ lo

/-- The little-endian value of a byte sequence as a natural number: byte j weighs 256^j (R13). -/
def leNat : List Byte → Nat
  | [] => 0
  | b :: bs => b.toNat + 256 * leNat bs

/-- LE (R13), for at most 8 bytes exact in 64 bits (R128 (4)); `LE []` is 0. -/
def le (bs : List Byte) : Word := BitVec.ofNat 64 (leNat bs)

/-- The `n` bytes of a number in little-endian order, the lowest first: byte j is bits 8j+7 to 8j (R64). -/
def leBytes : Nat → Nat → List Byte
  | 0, _ => []
  | n + 1, v => BitVec.ofNat 8 v :: leBytes n (v / 256)

/-! ### Classes, validity, format and length (R82 to R96) -/

/-- Valid (R85): a function of the first byte's two nibbles. -/
def validCode (icode ifun : Nibble) : Bool :=
  match icode.toNat with
  | 0x2 | 0x6 | 0x7 => ifun.toNat ≤ 0x6
  | 0x0 | 0x1 | 0x3 | 0x4 | 0x5 | 0x8 | 0x9 | 0xA | 0xB => ifun.toNat == 0x0
  | _ => false

/-- Whether a first byte is valid (R85). -/
def validByte (b0 : Byte) : Bool := validCode (hiNibble b0) (loNibble b0)

/-- HasReg (R96): the classes with a register byte, IRMOV among them (90_conflicts.md C1). -/
def hasReg (icode : Nibble) : Bool :=
  [0x2, 0x3, 0x4, 0x5, 0x6, 0xA, 0xB].contains icode.toNat

/-- HasD (R96): the classes with an 8-byte field. -/
def hasD (icode : Nibble) : Bool :=
  [0x3, 0x4, 0x5, 0x7, 0x8].contains icode.toNat

/-- The format a first byte determines (R88, R89): FormatOf (R112) for a valid one, INV otherwise. -/
def formatOf (b0 : Byte) : Fmt :=
  if validByte b0 then
    match hasReg (hiNibble b0), hasD (hiNibble b0) with
    | false, false => .B
    | true, false => .BR
    | true, true => .BRD
    | false, true => .BD
  else .INV

/-- Length(b0) (R96): 8 for an invalid first byte, else one byte, one more with a register byte and eight more with a
D field. -/
def lengthOf (b0 : Byte) : Nat :=
  if validByte b0 then
    1 + (if hasReg (hiNibble b0) then 1 else 0) + (if hasD (hiNibble b0) then 8 else 0)
  else Config.invSpan

/-! ### The layouts (R88) -/

/-- The FMT code of R88; 5 to 7 are never written (R27). -/
def Fmt.code : Fmt → BitVec 3
  | .B => 0
  | .BR => 1
  | .BRD => 2
  | .BD => 3
  | .INV => 4

/-- Format B: the first byte alone. -/
def layoutB (b0 : Byte) : List Byte := [b0]

/-- Format BR: the first byte, then rA and rB in one byte. -/
def layoutBR (b0 : Byte) (ra rb : Nibble) : List Byte := [b0, byteOf ra rb]

/-- Format BRD: the first byte, the register byte, then D little-endian in offsets 2 to 9. -/
def layoutBRD (b0 : Byte) (ra rb : Nibble) (d : Word) : List Byte := b0 :: byteOf ra rb :: leBytes 8 d.toNat

/-- Format BD: the first byte, then D little-endian in offsets 1 to 8. -/
def layoutBD (b0 : Byte) (d : Word) : List Byte := b0 :: leBytes 8 d.toNat

/-- Format INV: the invalid first byte, then the 7 bytes of the recovery slot. -/
def layoutINV (b0 : Byte) (slot : BitVec 56) : List Byte := b0 :: leBytes 7 slot.toNat

/-! ### The decoder -/

/-- The instruction that begins with `b0`, where `rest` holds the bytes of it that were read after the first
(R93, R116, R117, R119). A byte that was not read counts as the value R123 gives its field: 0xF for each register code,
zero for the high bytes of D and of the raw value. -/
def decodeFirst (b0 : Byte) (rest : List Byte) : Instr :=
  let b1 := rest.getD 0 0xFF
  let ra := hiNibble b1
  let rb := loNibble b1
  let dBRD := le ((rest.drop 1).take 8)
  let dBD := le (rest.take 8)
  match b0.toNat with
  | 0x00 => .halt
  | 0x10 => .nop
  | 0x20 => .rrmovq ra rb
  | 0x21 => .cmovle ra rb
  | 0x22 => .cmovl ra rb
  | 0x23 => .cmove ra rb
  | 0x24 => .cmovne ra rb
  | 0x25 => .cmovge ra rb
  | 0x26 => .cmovg ra rb
  | 0x30 => .irmovq ra rb dBRD
  | 0x40 => .rmmovq ra rb dBRD
  | 0x50 => .mrmovq ra rb dBRD
  | 0x60 => .addq ra rb
  | 0x61 => .subq ra rb
  | 0x62 => .andq ra rb
  | 0x63 => .xorq ra rb
  | 0x64 => .op4 ra rb
  | 0x65 => .op5 ra rb
  | 0x66 => .op6 ra rb
  | 0x70 => .jmp dBD
  | 0x71 => .jle dBD
  | 0x72 => .jl dBD
  | 0x73 => .je dBD
  | 0x74 => .jne dBD
  | 0x75 => .jge dBD
  | 0x76 => .jg dBD
  | 0x80 => .call dBD
  | 0x90 => .ret
  | 0xA0 => .pushq ra rb
  | 0xB0 => .popq ra rb
  | _ => .quad b0 (BitVec.ofNat 56 (leNat (rest.take 7)))

/-- Why a byte sequence holds no whole instruction. Neither is a fault of the block: it reports the first as
end-of-stream (R114) and the second as truncation (R118). -/
inductive DecodeReject where
  /-- there is no first byte -/
  | noByte
  /-- the first byte asks for `need` bytes and `got` are there -/
  | truncated (need got : Nat)
deriving DecidableEq, Repr

/-- The decoder: the instruction at the head of a byte sequence and the bytes after it, or the name of the reason why
there is none. Total: every first byte has one decode (R93, R94). -/
def decode : List Byte → Except DecodeReject (Instr × List Byte)
  | [] => .error .noByte
  | b0 :: rest =>
    if rest.length + 1 < lengthOf b0 then .error (.truncated (lengthOf b0) (rest.length + 1))
    else .ok (decodeFirst b0 (rest.take (lengthOf b0 - 1)), rest.drop (lengthOf b0 - 1))

/-! ### The encoder -/

/-- The bytes of an instruction, from the class table and the layouts (R88, R89, R93). -/
def encode : Instr → List Byte
  | .halt => layoutB 0x00
  | .nop => layoutB 0x10
  | .rrmovq ra rb => layoutBR 0x20 ra rb
  | .cmovle ra rb => layoutBR 0x21 ra rb
  | .cmovl ra rb => layoutBR 0x22 ra rb
  | .cmove ra rb => layoutBR 0x23 ra rb
  | .cmovne ra rb => layoutBR 0x24 ra rb
  | .cmovge ra rb => layoutBR 0x25 ra rb
  | .cmovg ra rb => layoutBR 0x26 ra rb
  | .irmovq ra rb d => layoutBRD 0x30 ra rb d
  | .rmmovq ra rb d => layoutBRD 0x40 ra rb d
  | .mrmovq ra rb d => layoutBRD 0x50 ra rb d
  | .addq ra rb => layoutBR 0x60 ra rb
  | .subq ra rb => layoutBR 0x61 ra rb
  | .andq ra rb => layoutBR 0x62 ra rb
  | .xorq ra rb => layoutBR 0x63 ra rb
  | .op4 ra rb => layoutBR 0x64 ra rb
  | .op5 ra rb => layoutBR 0x65 ra rb
  | .op6 ra rb => layoutBR 0x66 ra rb
  | .jmp d => layoutBD 0x70 d
  | .jle d => layoutBD 0x71 d
  | .jl d => layoutBD 0x72 d
  | .je d => layoutBD 0x73 d
  | .jne d => layoutBD 0x74 d
  | .jge d => layoutBD 0x75 d
  | .jg d => layoutBD 0x76 d
  | .call d => layoutBD 0x80 d
  | .ret => layoutB 0x90
  | .pushq ra rb => layoutBR 0xA0 ra rb
  | .popq ra rb => layoutBR 0xB0 ra rb
  | .quad b0 slot => layoutINV b0 slot

/-! ### The opcode table's words -/

/-- The bytes of a table word: bit 0 is the least significant bit of the first byte, every bit at or above `nbits`
is 0, and the sequence is as long as the longest instruction (R89). -/
def tableBytes (nbits w : Nat) : List Byte := leBytes Config.maxSpan (w % 2 ^ nbits)

/-- The instruction the decoder reads from a table word. -/
def decodeTableWord (nbits w : Nat) : Option Instr :=
  match decode (tableBytes nbits w) with
  | .ok (i, _) => some i
  | .error _ => none

end Sys2Proof
end

