-- ==== Sys2Proof/Machine/State.lean ====
section
/-! DEFINITION. The state of the machine: the block's architectural state (R20 to R38), the input buffer outside it
(R60), and the model's own fields for the host's actions and the free values. Plain data. -/

namespace Sys2Proof.Machine

/-- PHASE, the stream state (R24). -/
inductive Phase where
  /-- no stream started since reset -/
  | idle
  /-- stream started, no record yet: the next STEP first skips leading zero bytes -/
  | lead
  /-- at least one record produced, the stream is not exhausted -/
  | run
  /-- exhausted: end-of-stream or truncation was reached -/
  | exh
deriving DecidableEq, Repr

/-- REC, the Decoded Instruction Record (R27). -/
structure Record where
  /-- REC.ADDR: the running address at the first byte -/
  addr : Word
  /-- REC.ICODE: first byte bits 7:4 -/
  icode : Nibble
  /-- REC.IFUN: first byte bits 3:0 -/
  ifun : Nibble
  /-- REC.RA: register byte bits 7:4, or 0xF when none was read -/
  ra : Nibble
  /-- REC.RB: register byte bits 3:0, or 0xF when none was read -/
  rb : Nibble
  /-- REC.D: the D field, the raw value of an invalid encoding, or 0 -/
  d : Word
  /-- REC.SPAN: ten byte cells, `span[0]` first (R28) -/
  span : Vector Byte 10
  /-- REC.SPAN_LEN: the number of bytes consumed -/
  spanLen : BitVec 4
  /-- REC.FMT -/
  fmt : Fmt
  /-- REC.VALID -/
  valid : Bool
  /-- REC.TRUNC -/
  trunc : Bool
deriving DecidableEq, Repr

/-- The reset value of REC (R38): RA and RB are 0xF, everything else is 0 (FMT 0 is B). -/
def Record.cleared : Record where
  addr := 0
  icode := 0
  ifun := 0
  ra := 0xF
  rb := 0xF
  d := 0
  span := #v[0, 0, 0, 0, 0, 0, 0, 0, 0, 0]
  spanLen := 0
  fmt := .B
  valid := false
  trunc := false

/-- What the host does to the block (R8 (2), R30, R70, R300): the inputs of the machine, one a step (log entry 1). -/
inductive HostAction where
  /-- assert the reset input (R300) -/
  | reset
  /-- write `value` to the register at byte offset `offset`, in an access of `width` bytes (R30) -/
  | regWrite (offset width : Nat) (value : Word)
  /-- read the register at byte offset `offset`, in an access of `width` bytes (R30) -/
  | regRead (offset width : Nat)
  /-- write one byte of the input buffer (R70, R303) -/
  | bufWrite (index : Word) (byte : Byte)
deriving DecidableEq, Repr

/-- The input buffer BUF (R60): a list of (index, byte) pairs in one canonical form (`Memory.wf`, Machine/Ops.lean). -/
abbrev Memory := List Host.Cell

/-- What the buffer holds at an index the list does not name. The spec says only that BUF holds "whatever the host
loaded" (R38). DESIGN CHOICE 0x00, unsafe (log entry 2). -/
def Memory.unlisted : Byte := 0x00

structure State where
  /-- PHASE (R24) -/
  phase : Phase
  /-- CUR, the index in BUF of the next byte to be read (R22) -/
  cur : Word
  /-- BASE, the starting address offset (R25) -/
  base : Word
  /-- LEN, the number of bytes of the stream (R26) -/
  len : Word
  /-- REC (R27) -/
  record : Record
  /-- STATUS.REC_VALID (R32) -/
  recValid : Bool
  /-- STATUS.EOS (R32) -/
  eos : Bool
  /-- STATUS.TRUNC (R32) -/
  trunc : Bool
  /-- STATUS.INVALID (R32) -/
  invalid : Bool
  /-- STATUS.CMD_ERR, sticky (R32) -/
  cmdErr : Bool
  /-- STATUS.BUSY (R32). Commands are atomic, so no step sets it (R311; log entry 4). -/
  busy : Bool
  /-- BUF, outside the block (R60) -/
  buf : Memory
  /-- MAX_LEN, an OPEN parameter (R10): an argument of the reset state that no step changes (log entry 3) -/
  maxLen : Word
  /-- MODEL: the pending host actions, oldest first (log entry 1) -/
  host : List HostAction
  /-- MODEL: the value the register port returned to the host's last register read (log entry 9) -/
  portData : Word
  /-- MODEL: the BUF indices the host wrote while the stream was running, rising, no repeats (R71; log entry 5) -/
  dirty : List Nat
  /-- MODEL: the counter the free values are drawn with (log entry 5) -/
  draws : Nat
deriving DecidableEq, Repr

/-- The machine right after reset, for a block whose OPEN parameter MAX_LEN is the argument (R10): every block register at
the spec's value (R38, R300). The buffer has nothing listed, no host action is pending; the model's own fields are log
entries 5 and 9. -/
def State.resetWith (maxLen : Word) : State where
  phase := .idle
  cur := 0
  base := 0
  len := 0
  record := Record.cleared
  recValid := false
  eos := false
  trunc := false
  invalid := false
  cmdErr := false
  busy := false
  buf := []
  maxLen := maxLen
  host := []
  portData := 0
  dirty := []
  draws := 0

/-- The machine right after reset (R38, R300), its MAX_LEN the unknown constant of Config (log entry 3). -/
def State.reset : State := State.resetWith Config.maxLen

/-- Why the machine stops with a fault: never. The block has no trap mechanism (R270), no condition is fatal to it
(R272), and no behaviour of it is left as fault or stuck (93_implementation_defined.md), so this type has no
constructor. -/
inductive Fault
deriving DecidableEq, Repr

/-- Why the model makes no claim about what happens next. -/
inductive Refusal where
  /-- Raised by `exec`'s arm for an instruction without a meaning; no arm raises it in this model. Safe. -/
  | notModelled (mnemonic : String)
  /-- Raised by a register access that is narrower or wider than 64 bits, or misaligned: "a model refuses them"
  (R30, U7). Safe. -/
  | portAccess (offset width : Nat)
  /-- Raised by an aligned 64-bit register access at an offset of 0x80 or more, where the register map lists nothing
  (R30; log entry 8). Safe. -/
  | portOffset (offset : Nat)
  /-- Raised by START while LEN > MAX_LEN: "a model refuses a START with such a LEN" (R33, R110, U8). Safe. -/
  | startBeyondMaxLen
deriving DecidableEq, Repr

/-- The outcome of a step of this machine. -/
abbrev Outcome := Host.Outcome State Fault Refusal

end Sys2Proof.Machine
end

