-- ==== Sys2Proof/Machine/Operands.lean ====
section
/-! DEFINITION. The fields of a record as functions of its format and of its span, the bytes the step consumed
(R116, R117, R119, R121, R123). A span is shorter than the format's length exactly when the instruction is
truncated (R118). -/

namespace Sys2Proof.Machine

/-- Whether a format has a register byte (R88). -/
def fmtHasReg : Fmt → Bool
  | .BR | .BRD => true
  | .B | .BD | .INV => false

/-- REC.RA: the high nibble of the register byte, or 0xF when none was read (R116, R123 (1)). -/
def raOf (fmt : Fmt) (span : List Byte) : Nibble :=
  if fmtHasReg fmt then hiNibble (span.getD 1 0xFF) else Config.noReg

/-- REC.RB: the low nibble of the register byte, or 0xF when none was read (R116, R123 (1)). -/
def rbOf (fmt : Fmt) (span : List Byte) : Nibble :=
  if fmtHasReg fmt then loNibble (span.getD 1 0xFF) else Config.noReg

/-- REC.D: LE of the D bytes that were read (R117, R123 (2)), LE of the whole span of an invalid encoding
(R119, R123 (3)), 0 for a format without either (R90). -/
def dOf (fmt : Fmt) (span : List Byte) : Word :=
  match fmt with
  | .B | .BR => 0
  | .BRD => le (span.drop 2)
  | .BD => le (span.drop 1)
  | .INV => le span

/-- REC.SPAN: the span in ten cells, the cells past it 0x00 (R27, R123 (4)). -/
def spanCells (span : List Byte) : Vector Byte 10 := Vector.ofFn fun k => span.getD k.val 0

/-- The record of a step that consumed `span` (R112 step 7). -/
def recordOf (addr : Word) (fmt : Fmt) (valid complete : Bool) (span : List Byte) : Record where
  addr := addr
  icode := hiNibble (span.headD 0)
  ifun := loNibble (span.headD 0)
  ra := raOf fmt span
  rb := rbOf fmt span
  d := dOf fmt span
  span := spanCells span
  spanLen := BitVec.ofNat 4 span.length
  fmt := fmt
  valid := valid
  trunc := !complete

end Sys2Proof.Machine
end

