-- ==== Sys2Proof/Machine/Ops.lean ====
section
/-! DEFINITION. The operations every instruction and command shares: the input buffer, the engine's reads of it, the
leading-zero skip, end-of-stream, the delivery of a record, START's stream reset and the reset input.
THERE IS NO EXCEPTION TO TAKE: the block has no trap mechanism, saves no state for a handler and has no return from
one (R270, R276, R277); what other machines trap on is reported in REC and STATUS by `deliver` and `endOfStream`. -/

namespace Sys2Proof.Machine

/-! ### The input buffer (R60) -/

/-- The byte at an index of the buffer. -/
def Memory.read : Memory → Nat → Byte
  | [], _ => Memory.unlisted
  | (a, b) :: m, i => if i = a then b else Memory.read m i

/-- A byte of the list, or no cell when the byte is what an unlisted index reads as. -/
def Memory.cell (i : Nat) (b : Byte) (m : Memory) : Memory := if b = Memory.unlisted then m else (i, b) :: m

/-- Write one byte, keeping the canonical form. -/
def Memory.write : Memory → Nat → Byte → Memory
  | [], i, b => Memory.cell i b []
  | (a, c) :: m, i, b =>
    if i < a then Memory.cell i b ((a, c) :: m)
    else if i = a then Memory.cell i b m
    else (a, c) :: Memory.write m i b

/-- Write consecutive bytes from an index on. -/
def Memory.writeList : Memory → Nat → List Byte → Memory
  | m, _, [] => m
  | m, i, b :: bs => Memory.writeList (Memory.write m i b) (i + 1) bs

/-- Every index of the list is at least `lo`, the indices rise strictly and stay in the 64-bit index space (R61), and
no cell holds what an unlisted index reads as. -/
def Memory.wfFrom : Nat → Memory → Bool
  | _, [] => true
  | lo, (a, b) :: m => lo ≤ a && a < 2 ^ 64 && b != Memory.unlisted && Memory.wfFrom (a + 1) m

/-- The canonical form of the buffer: equal buffers are equal lists. -/
def Memory.wf (m : Memory) : Bool := Memory.wfFrom 0 m

/-- CUR set to an index (R22). -/
def setCur (w : Word) (s : State) : State := { s with cur := w }

/-! ### The engine's reads (R14 MemRead, R62, R66, R71) -/

/-- The byte one engine read returns: the buffer's, or a free value where the host has written the index during this
stream (R71). -/
def engineByte (s : State) (k : Config.ReadKind) (i : Nat) : Byte :=
  if s.dirty.contains i then Config.freeByte s.draws k i else s.buf.read i

/-- `n` bytes of the instruction from an index on, in increasing order (R63). -/
def readBytes (s : State) : Nat → Nat → List Byte
  | _, 0 => []
  | i, n + 1 => engineByte s .decode i :: readBytes s (i + 1) n

/-- The leading-zero skip (R113): the first index at or after `i` that does not hold 0x00, at most `n` further. -/
def skipZeros (s : State) : Nat → Nat → Nat
  | 0, i => i
  | n + 1, i => if engineByte s .skip i = 0 then skipZeros s n (i + 1) else i

/-- The number of bytes of the stream from an index on. -/
def remaining (s : State) (i : Nat) : Nat := s.len.toNat - i

/-- Where the next instruction of the stream would start: CUR, or in the LEAD phase the first non-zero byte from CUR on
(R113), at most LEN. -/
def firstByteIndex (s : State) : Nat :=
  if s.phase = .lead then skipZeros s (remaining s s.cur.toNat) s.cur.toNat else s.cur.toNat

/-- The bytes the step consumes for the instruction at an index: the first byte, then as many of the length it
determines as the stream still holds (R62, R66, R118). Empty at the end of the stream (R114). -/
def fetchSpan (s : State) (i : Nat) : List Byte :=
  match remaining s i with
  | 0 => []
  | n + 1 =>
    let b0 := engineByte s .decode i
    b0 :: readBytes s (i + 1) (min (lengthOf b0 - 1) n)

/-! ### End-of-stream and delivery (R114, R118 to R122) -/

/-- End-of-stream (R114): no record, REC unchanged, the stream exhausted. -/
def endOfStream (s : State) : State :=
  { s with phase := .exh, recValid := false, eos := true, trunc := false, invalid := false }

/-- Put a record that consumed `k` bytes into REC (R112 step 7, R120, R122): STATUS reports it, CUR moves past its
bytes, and the stream is exhausted exactly when the record is truncated. -/
def commit (r : Record) (k : Nat) (s : State) : State :=
  { s with
    cur := s.cur + BitVec.ofNat 64 k
    record := r
    recValid := true
    eos := false
    trunc := r.trunc
    invalid := !r.valid
    phase := if r.trunc then .exh else .run }

/-- Deliver the instruction at CUR whose whole encoding is `bytes` (R112 steps 2 to 7): the bytes that the stream still
holds are its span; when they are fewer than the encoding the record is truncated (R118). The address is BASE + CUR
modulo 2^64 (R121). With no byte left there is no record (R114; log entry 11). -/
def deliver (fmt : Fmt) (valid : Bool) (bytes : List Byte) (s : State) : Outcome :=
  let avail := remaining s s.cur.toNat
  if avail = 0 then .next (endOfStream s)
  else
    let span := bytes.take avail
    .next (commit (recordOf (s.base + s.cur) fmt valid (bytes.length ≤ avail) span) span.length s)

/-! ### START's stream reset, the reset input, the refused command -/

/-- What START does when it is allowed (R110): BASE, LEN and BUF stay. The stream's dirty indices are forgotten: START
is the ordering point after which earlier host writes are visible (R72). -/
def startStream (s : State) : State :=
  { s with
    cur := 0, phase := .lead, record := Record.cleared
    recValid := false, eos := false, trunc := false, invalid := false, cmdErr := false
    dirty := [] }

/-- The reset input (R300, R302): every item of block state takes its reset value; BUF, which is outside the block, the
parameter MAX_LEN, the pending host actions, the host's last read value and the draw counter stay (log entry 10). -/
def resetBlock (s : State) : State :=
  { State.resetWith s.maxLen with buf := s.buf, host := s.host, portData := s.portData, draws := s.draws }

/-- A refused command or write (R111, R33, R311): CMD_ERR and nothing else (R272). -/
def refuseCommand (s : State) : State := { s with cmdErr := true }

/-- An index put into a rising list without repeats. -/
def insertIndex (i : Nat) : List Nat → List Nat
  | [] => [i]
  | a :: l => if i < a then i :: a :: l else if i = a then a :: l else a :: insertIndex i l

/-- Whether a stream is running: PHASE is LEAD or RUN (R33, R70). -/
def streaming (s : State) : Bool := s.phase = .lead || s.phase = .run

end Sys2Proof.Machine
end

