-- ==== Sys2Proof/Machine/Arith.lean ====
section
/-! DEFINITION. Arithmetic (spec/43_arith.md). The block computes no result and keeps no condition code (R180). OP with
IFUN 4 to 6 is valid although it has no mnemonic (R95, R185 to R187). -/

namespace Sys2Proof.Machine

/-- `addq rA, rB`, first byte 0x60 (R180, R181): format BR, 2 bytes. -/
def execAddq (ra rb : Nibble) (s : State) : Outcome := deliver .BR true (layoutBR 0x60 ra rb) s

/-- `subq rA, rB`, first byte 0x61 (R180, R182): format BR, 2 bytes. -/
def execSubq (ra rb : Nibble) (s : State) : Outcome := deliver .BR true (layoutBR 0x61 ra rb) s

/-- `andq rA, rB`, first byte 0x62 (R180, R183): format BR, 2 bytes. -/
def execAndq (ra rb : Nibble) (s : State) : Outcome := deliver .BR true (layoutBR 0x62 ra rb) s

/-- `xorq rA, rB`, first byte 0x63 (R180, R184): format BR, 2 bytes. -/
def execXorq (ra rb : Nibble) (s : State) : Outcome := deliver .BR true (layoutBR 0x63 ra rb) s

/-- OP with IFUN 4, first byte 0x64 (R180, R185): format BR, 2 bytes. -/
def execOp4 (ra rb : Nibble) (s : State) : Outcome := deliver .BR true (layoutBR 0x64 ra rb) s

/-- OP with IFUN 5, first byte 0x65 (R180, R186): format BR, 2 bytes. -/
def execOp5 (ra rb : Nibble) (s : State) : Outcome := deliver .BR true (layoutBR 0x65 ra rb) s

/-- OP with IFUN 6, first byte 0x66 (R180, R187): format BR, 2 bytes. -/
def execOp6 (ra rb : Nibble) (s : State) : Outcome := deliver .BR true (layoutBR 0x66 ra rb) s


end Sys2Proof.Machine
end

