-- ==== Sys2Proof/Machine/Control.lean ====
section
/-! DEFINITION. Jumps, call and return (spec/44_control_transfer.md). The block does not transfer control: the target is
extracted and never followed, no return address is pushed, and CUR moves past the instruction only (R190). -/

namespace Sys2Proof.Machine

/-- `jmp D`, first byte 0x70 (R191, R192): format BD, 9 bytes. -/
def execJmp (d : Word) (s : State) : Outcome := deliver .BD true (layoutBD 0x70 d) s

/-- `jle D`, first byte 0x71 (R191, R193): format BD, 9 bytes. -/
def execJle (d : Word) (s : State) : Outcome := deliver .BD true (layoutBD 0x71 d) s

/-- `jl D`, first byte 0x72 (R191, R194): format BD, 9 bytes. -/
def execJl (d : Word) (s : State) : Outcome := deliver .BD true (layoutBD 0x72 d) s

/-- `je D`, first byte 0x73 (R191, R195): format BD, 9 bytes. -/
def execJe (d : Word) (s : State) : Outcome := deliver .BD true (layoutBD 0x73 d) s

/-- `jne D`, first byte 0x74 (R191, R196): format BD, 9 bytes. -/
def execJne (d : Word) (s : State) : Outcome := deliver .BD true (layoutBD 0x74 d) s

/-- `jge D`, first byte 0x75 (R191, R197): format BD, 9 bytes. -/
def execJge (d : Word) (s : State) : Outcome := deliver .BD true (layoutBD 0x75 d) s

/-- `jg D`, first byte 0x76 (R191, R198): format BD, 9 bytes. -/
def execJg (d : Word) (s : State) : Outcome := deliver .BD true (layoutBD 0x76 d) s

/-- `call D`, first byte 0x80 (R191, R199): format BD, 9 bytes. -/
def execCall (d : Word) (s : State) : Outcome := deliver .BD true (layoutBD 0x80 d) s

/-- `ret`, first byte 0x90 (R200): format B, 1 byte. The stream continues after it. -/
def execRet (s : State) : Outcome := deliver .B true (layoutB 0x90) s


end Sys2Proof.Machine
end

