-- ==== Sys2Proof/Machine/HaltNop.lean ====
section
/-! DEFINITION. halt and nop (spec/41_halt_nop.md). A halt does not stop the block (R150 (2)); the 0x00 bytes before a
stream's first record never reach `execHalt`, since the step skips them (R113). -/

namespace Sys2Proof.Machine

/-- `halt`, first byte 0x00 (R150): format B, 1 byte. Decoding continues at the next byte. -/
def execHalt (s : State) : Outcome := deliver .B true (layoutB 0x00) s

/-- `nop`, first byte 0x10 (R151): format B, 1 byte. The record of a nop. -/
def execNop (s : State) : Outcome := deliver .B true (layoutB 0x10) s


end Sys2Proof.Machine
end

