-- ==== Sys2Proof/Machine/Invalid.lean ====
section
/-! DEFINITION. Invalid encodings (spec/46_invalid.md): not a fault but a record with VALID 0 (R221, R222). -/

namespace Sys2Proof.Machine

/-- An invalid first byte with its recovery slot (R221): format INV, 8 bytes, whatever the slot holds. -/
def execQuad (b0 : Byte) (slot : BitVec 56) (s : State) : Outcome := deliver .INV false (layoutINV b0 slot) s

end Sys2Proof.Machine
end

