-- ==== Sys2Proof/Machine/Moves.lean ====
section
/-! DEFINITION. The register, immediate and memory moves (spec/42_moves.md). The block copies the register nibbles
unchecked (R87), evaluates no condition (R160) and computes no effective address (R169, R170). -/

namespace Sys2Proof.Machine

/-- `rrmovq rA, rB`, first byte 0x20 (R160, R161): format BR, 2 bytes. -/
def execRrmovq (ra rb : Nibble) (s : State) : Outcome := deliver .BR true (layoutBR 0x20 ra rb) s

/-- `cmovle rA, rB`, first byte 0x21 (R160, R162): format BR, 2 bytes. -/
def execCmovle (ra rb : Nibble) (s : State) : Outcome := deliver .BR true (layoutBR 0x21 ra rb) s

/-- `cmovl rA, rB`, first byte 0x22 (R160, R163): format BR, 2 bytes. -/
def execCmovl (ra rb : Nibble) (s : State) : Outcome := deliver .BR true (layoutBR 0x22 ra rb) s

/-- `cmove rA, rB`, first byte 0x23 (R160, R164): format BR, 2 bytes. -/
def execCmove (ra rb : Nibble) (s : State) : Outcome := deliver .BR true (layoutBR 0x23 ra rb) s

/-- `cmovne rA, rB`, first byte 0x24 (R160, R165): format BR, 2 bytes. -/
def execCmovne (ra rb : Nibble) (s : State) : Outcome := deliver .BR true (layoutBR 0x24 ra rb) s

/-- `cmovge rA, rB`, first byte 0x25 (R160, R166): format BR, 2 bytes. -/
def execCmovge (ra rb : Nibble) (s : State) : Outcome := deliver .BR true (layoutBR 0x25 ra rb) s

/-- `cmovg rA, rB`, first byte 0x26 (R160, R167): format BR, 2 bytes. -/
def execCmovg (ra rb : Nibble) (s : State) : Outcome := deliver .BR true (layoutBR 0x26 ra rb) s

/-- `irmovq $D, rB`, first byte 0x30 (R168): format BRD, 10 bytes. -/
def execIrmovq (ra rb : Nibble) (d : Word) (s : State) : Outcome := deliver .BRD true (layoutBRD 0x30 ra rb d) s

/-- `rmmovq rA, D(rB)`, first byte 0x40 (R169): format BRD, 10 bytes. -/
def execRmmovq (ra rb : Nibble) (d : Word) (s : State) : Outcome := deliver .BRD true (layoutBRD 0x40 ra rb d) s

/-- `mrmovq D(rB), rA`, first byte 0x50 (R170): format BRD, 10 bytes. -/
def execMrmovq (ra rb : Nibble) (d : Word) (s : State) : Outcome := deliver .BRD true (layoutBRD 0x50 ra rb d) s


end Sys2Proof.Machine
end

