-- ==== Sys2Proof/Machine/Stack.lean ====
section
/-! DEFINITION. push and pop (spec/45_stack.md). The operand is rA; an rB other than 0xF is copied and not refused. The
block touches no stack (R210). -/

namespace Sys2Proof.Machine

/-- `pushq rA`, first byte 0xA0 (R210, R211): format BR, 2 bytes. -/
def execPushq (ra rb : Nibble) (s : State) : Outcome := deliver .BR true (layoutBR 0xA0 ra rb) s

/-- `popq rA`, first byte 0xB0 (R210, R212): format BR, 2 bytes. -/
def execPopq (ra rb : Nibble) (s : State) : Outcome := deliver .BR true (layoutBR 0xB0 ra rb) s


end Sys2Proof.Machine
end

