-- ==== Sys2Proof/Machine/Dispatch.lean ====
section
/-! DEFINITION. The dispatch: one arm per instruction, each a direct call of its meaning. `exec i s` is steps 2 to 7 of the
decode step (R112) for the instruction `i` at CUR. -/

namespace Sys2Proof.Machine

def exec (i : Instr) (s : State) : Host.Outcome State Fault Refusal :=
  match i with
  | .halt => Sys2Proof.Machine.execHalt s
  | .nop => Sys2Proof.Machine.execNop s
  | .rrmovq ra rb => Sys2Proof.Machine.execRrmovq ra rb s
  | .cmovle ra rb => Sys2Proof.Machine.execCmovle ra rb s
  | .cmovl ra rb => Sys2Proof.Machine.execCmovl ra rb s
  | .cmove ra rb => Sys2Proof.Machine.execCmove ra rb s
  | .cmovne ra rb => Sys2Proof.Machine.execCmovne ra rb s
  | .cmovge ra rb => Sys2Proof.Machine.execCmovge ra rb s
  | .cmovg ra rb => Sys2Proof.Machine.execCmovg ra rb s
  | .irmovq ra rb d => Sys2Proof.Machine.execIrmovq ra rb d s
  | .rmmovq ra rb d => Sys2Proof.Machine.execRmmovq ra rb d s
  | .mrmovq ra rb d => Sys2Proof.Machine.execMrmovq ra rb d s
  | .addq ra rb => Sys2Proof.Machine.execAddq ra rb s
  | .subq ra rb => Sys2Proof.Machine.execSubq ra rb s
  | .andq ra rb => Sys2Proof.Machine.execAndq ra rb s
  | .xorq ra rb => Sys2Proof.Machine.execXorq ra rb s
  | .op4 ra rb => Sys2Proof.Machine.execOp4 ra rb s
  | .op5 ra rb => Sys2Proof.Machine.execOp5 ra rb s
  | .op6 ra rb => Sys2Proof.Machine.execOp6 ra rb s
  | .jmp d => Sys2Proof.Machine.execJmp d s
  | .jle d => Sys2Proof.Machine.execJle d s
  | .jl d => Sys2Proof.Machine.execJl d s
  | .je d => Sys2Proof.Machine.execJe d s
  | .jne d => Sys2Proof.Machine.execJne d s
  | .jge d => Sys2Proof.Machine.execJge d s
  | .jg d => Sys2Proof.Machine.execJg d s
  | .call d => Sys2Proof.Machine.execCall d s
  | .ret => Sys2Proof.Machine.execRet s
  | .pushq ra rb => Sys2Proof.Machine.execPushq ra rb s
  | .popq ra rb => Sys2Proof.Machine.execPopq ra rb s
  | .quad b0 slot => Sys2Proof.Machine.execQuad b0 slot s

end Sys2Proof.Machine
end

