-- ==== Sys2Proof/Machine/Command.lean ====
section
/-! DEFINITION. The commands START and STEP (spec/40_decode_step.md). -/

namespace Sys2Proof.Machine

/-- The state in which a decode step reads its first byte: CUR stands at it, and one draw of the free values is used up,
which only reads of indices the host has disturbed return (R71). -/
def beginStep (at0 : Nat) (s : State) : State := { setCur (BitVec.ofNat 64 at0) s with draws := s.draws + 1 }

/-- DecodeStep (R112), one atomic transition (R67): skip the leading zeros in the LEAD phase (R113); with no byte left
end the stream (R114); otherwise read the instruction's bytes and run it. -/
def decodeStep (s : State) : Outcome :=
  let at0 := firstByteIndex s
  match fetchSpan s at0 with
  | [] => .next (endOfStream (beginStep at0 s))
  | b0 :: rest => exec (decodeFirst b0 rest) (beginStep at0 s)

/-- STEP (R111): refused while no stream is active, else a decode step. -/
def stepCommand (s : State) : Outcome :=
  if streaming s then decodeStep s else .next (refuseCommand s)

/-- START (R110), allowed in every PHASE; a model refuses it while LEN > MAX_LEN (R33). -/
def startCommand (s : State) : Outcome :=
  if s.maxLen < s.len then .refused .startBeyondMaxLen else .next (startStream s)

end Sys2Proof.Machine
end

