-- ==== Sys2Proof/Machine/Flags.lean ====
section
/-! DEFINITION. The words the host reads that are packed from single bits and fields: STATUS (R32), REC_INFO (R34),
REC_SPAN0 and REC_SPAN1 (R35); and the conditions with their codes (R271). The block keeps no flag of the decoded
ISA (R29). -/

namespace Sys2Proof.Machine

/-- The PHASE code (R24). -/
def phaseCode : Phase → BitVec 2
  | .idle => 0
  | .lead => 1
  | .run => 2
  | .exh => 3

/-- STATUS.EXHAUSTED, a view of PHASE (R32). -/
def exhausted (s : State) : Bool := s.phase = .exh

/-- STATUS (R32): BUSY 0, REC_VALID 1, EOS 2, TRUNC 3, INVALID 4, EXHAUSTED 5, CMD_ERR 6, PHASE 9:8; the other bits
read 0. -/
def statusWord (s : State) : Word :=
  (0 : BitVec 54) ++ phaseCode s.phase ++ (0 : BitVec 1) ++ BitVec.ofBool s.cmdErr ++ BitVec.ofBool (exhausted s) ++
  BitVec.ofBool s.invalid ++ BitVec.ofBool s.trunc ++ BitVec.ofBool s.eos ++ BitVec.ofBool s.recValid ++
  BitVec.ofBool s.busy

/-- REC_INFO (R34): IFUN 3:0, ICODE 7:4, RB 11:8, RA 15:12, SPAN_LEN 19:16, FMT 22:20, VALID 24, TRUNC 25; the other
bits read 0. -/
def recInfoWord (r : Record) : Word :=
  (0 : BitVec 38) ++ BitVec.ofBool r.trunc ++ BitVec.ofBool r.valid ++ (0 : BitVec 1) ++ r.fmt.code ++ r.spanLen ++
  r.ra ++ r.rb ++ r.icode ++ r.ifun

/-- REC_SPAN0 (R35): span cells 0 to 7, cell k at bits 8k+7 to 8k. -/
def recSpan0Word (r : Record) : Word :=
  r.span[7] ++ r.span[6] ++ r.span[5] ++ r.span[4] ++ r.span[3] ++ r.span[2] ++ r.span[1] ++ r.span[0]

/-- REC_SPAN1 (R35): span cell 8 at bits 7:0 and cell 9 at bits 15:8; bits 63:16 read 0. -/
def recSpan1Word (r : Record) : Word := (0 : BitVec 48) ++ r.span[9] ++ r.span[8]

/-- The bits of STATUS that a condition or a command can set; the others are reserved and read 0 (R32, U10). -/
def statusMask : Word := 0x37F

/-- The bits of REC_INFO that hold a field; the others are reserved and read 0 (R34, U10). -/
def recInfoMask : Word := 0x37FFFFF

/-- The bits of REC_SPAN1 that hold a span cell; the others read 0 (R35). -/
def recSpan1Mask : Word := 0xFFFF

/-- The conditions the block detects, and `none` for a valid, complete record (R271). -/
inductive Condition where
  | none | invalid | trunc | eos | cmdErr
deriving DecidableEq, Repr

/-- The cause code of a condition (R271). No register holds it: the host reads the STATUS bits. -/
def conditionCode : Condition → Nat
  | .none => 0
  | .invalid => 1
  | .trunc => 2
  | .eos => 3
  | .cmdErr => 4

/-- The STATUS bit that records a condition (R271). -/
def conditionBit : Condition → Option Nat
  | .none => Option.none
  | .invalid => some 4
  | .trunc => some 3
  | .eos => some 2
  | .cmdErr => some 6

/-- Whether a condition is reported in a state (R271, R32); `none` is a delivered record that is valid and complete. -/
def conditionHolds (c : Condition) (s : State) : Bool :=
  match c with
  | .none => s.recValid && !s.invalid && !s.trunc
  | .invalid => s.invalid
  | .trunc => s.trunc
  | .eos => s.eos
  | .cmdErr => s.cmdErr

end Sys2Proof.Machine
end

