-- ==== Sys2Proof/Machine/Port.lean ====
section
/-! DEFINITION. The host register port (R30 to R35), and what each action of the host does. -/

namespace Sys2Proof.Machine

/-- The registers of the map (R30). -/
inductive PortReg where
  | ctrl | status | base | len | cur | recAddr | recInfo | recD | recSpan0 | recSpan1
  /-- 0x50 to 0x7F: reads 0, writes ignored -/
  | reserved
deriving DecidableEq, Repr

/-- The register at an aligned byte offset (R30); none at 0x80 or above (log entry 8). -/
def portRegAt (offset : Nat) : Option PortReg :=
  match offset with
  | 0x00 => some .ctrl
  | 0x08 => some .status
  | 0x10 => some .base
  | 0x18 => some .len
  | 0x20 => some .cur
  | 0x28 => some .recAddr
  | 0x30 => some .recInfo
  | 0x38 => some .recD
  | 0x40 => some .recSpan0
  | 0x48 => some .recSpan1
  | n => if n < 0x80 then some .reserved else none

/-- What a register reads as while no command is in progress (R30 to R35). CTRL is write-only and reads 0 (R31). -/
def regValue (s : State) : PortReg → Word
  | .ctrl => 0
  | .status => statusWord s
  | .base => s.base
  | .len => s.len
  | .cur => s.cur
  | .recAddr => s.record.addr
  | .recInfo => recInfoWord s.record
  | .recD => s.record.d
  | .recSpan0 => recSpan0Word s.record
  | .recSpan1 => recSpan1Word s.record
  | .reserved => 0

/-- What a register reads as while BUSY = 1 (R311 (a), U6), given the free word `v`: the REC registers, CUR and the
other STATUS bits are any value, the reserved bits still read 0 (U10; log entry 6), and BASE and LEN read as ever. -/
def regValueBusy (s : State) (v : Word) : PortReg → Word
  | .ctrl => 0
  | .status => (v &&& statusMask) ||| 1
  | .base => s.base
  | .len => s.len
  | .cur => v
  | .recAddr => v
  | .recInfo => v &&& recInfoMask
  | .recD => v
  | .recSpan0 => v
  | .recSpan1 => v &&& recSpan1Mask
  | .reserved => 0

/-- A write to CTRL (R31): bit 0 is START, and with it the STEP bit is ignored; bit 1 is STEP; the other bits are
ignored. While BUSY = 1 the write is ignored and sets CMD_ERR (R311 (b)). -/
def writeCtrl (v : Word) (s : State) : Outcome :=
  if s.busy then .next (refuseCommand s)
  else if v.getLsbD 0 then startCommand s
  else if v.getLsbD 1 then stepCommand s
  else .next s

/-- Whether a write to BASE or LEN is ignored and sets CMD_ERR: while a stream is running (R33) or BUSY = 1 (R311). -/
def configLocked (s : State) : Bool := s.busy || streaming s

/-- A write to BASE (R33): every value is legal. -/
def writeBase (v : Word) (s : State) : Outcome :=
  if configLocked s then .next (refuseCommand s) else .next { s with base := v }

/-- A write to LEN (R33). A value above MAX_LEN is stored; the START after it is what the model refuses. -/
def writeLen (v : Word) (s : State) : Outcome :=
  if configLocked s then .next (refuseCommand s) else .next { s with len := v }

/-- A write to a register (R30): a write to a read-only or reserved register is ignored. -/
def writeReg (r : PortReg) (v : Word) (s : State) : Outcome :=
  match r with
  | .ctrl => writeCtrl v s
  | .base => writeBase v s
  | .len => writeLen v s
  | .status | .cur | .recAddr | .recInfo | .recD | .recSpan0 | .recSpan1 | .reserved => .next s

/-- A read of a register (R30): the value reaches the host and nothing in the block changes. A read while BUSY = 1 uses
up one draw of the free values. -/
def readReg (r : PortReg) (s : State) : Outcome :=
  if s.busy then .next { s with portData := regValueBusy s (Config.freeWord s.draws) r, draws := s.draws + 1 }
  else .next { s with portData := regValue s r }

/-- Whether an access is a whole 64-bit register at an offset that is a multiple of 8 (R30). -/
def wholeAccess (offset width : Nat) : Bool := width == 8 && offset % 8 == 0

/-- The host writes a register through the port (R30, U7). -/
def portWrite (offset width : Nat) (v : Word) (s : State) : Outcome :=
  if wholeAccess offset width then
    match portRegAt offset with
    | some r => writeReg r v s
    | none => .refused (.portOffset offset)
  else .refused (.portAccess offset width)

/-- The host reads a register through the port (R30, U7). -/
def portRead (offset width : Nat) (s : State) : Outcome :=
  if wholeAccess offset width then
    match portRegAt offset with
    | some r => readReg r s
    | none => .refused (.portOffset offset)
  else .refused (.portAccess offset width)

/-- The host writes BUF[index]. While a stream is running the index becomes dirty: every later engine read of it in this
stream returns any value (R71, R310). -/
def bufWrite (index : Word) (b : Byte) (s : State) : State :=
  { s with
    buf := s.buf.write index.toNat b
    dirty := if streaming s then insertIndex index.toNat s.dirty else s.dirty }

/-- One action of the host (R8 (2)). -/
def hostAct (a : HostAction) (s : State) : Outcome :=
  match a with
  | .reset => .next (resetBlock s)
  | .regWrite offset width v => portWrite offset width v s
  | .regRead offset width => portRead offset width s
  | .bufWrite index b => .next (bufWrite index b s)

/-- The host's START: CTRL bit 0 (R129). -/
def HostAction.start : HostAction := .regWrite 0x00 8 1

/-- The host's STEP: CTRL bit 1 (R129). -/
def HostAction.stepCmd : HostAction := .regWrite 0x00 8 2

/-- The state in which the next step runs the instruction that `bytes` begins with, as the first of them at CUR: the
bytes stand in BUF at CUR (at index 0 where the index space ends too soon after CUR), undisturbed, the stream is
running and reaches to the end of `bytes`, no command is in progress, and the host's next action is STEP
(log entry 12). -/
def placeInstruction (bytes : List Byte) (s : State) : State :=
  let i := if s.cur.toNat + bytes.length < 2 ^ 64 then s.cur.toNat else 0
  { s with
    phase := .run
    cur := BitVec.ofNat 64 i
    len := BitVec.ofNat 64 (i + bytes.length)
    busy := false
    buf := s.buf.writeList i bytes
    dirty := s.dirty.filter fun j => !(i ≤ j && j < i + bytes.length)
    host := HostAction.stepCmd :: s.host }

end Sys2Proof.Machine
end

