-- ==== Sys2Proof/Machine/Step.lean ====
section
/-! DEFINITION. The step: one action of the host (R8, R67). With no action pending nothing happens, since nothing but a
host command moves the block (R285; log entry 1). -/

namespace Sys2Proof.Machine

/-- One step of the machine: take the oldest pending action of the host and do it. -/
def step (s : State) : Host.Outcome State Fault Refusal :=
  match s.host with
  | [] => .next s
  | a :: rest => hostAct a { s with host := rest }

/-- The state whose next step runs the instruction with the table word `w` of `nbits` bits (log entry 12). -/
def State.withFetchWord (s : State) (nbits w : Nat) : State := placeInstruction (tableBytes nbits w) s

end Sys2Proof.Machine
end

