-- ==== Sys2Proof/Machine/Algorithm.lean ====
section
/-! DEFINITION. The decode step a second time, as the spec's pseudocode writes it (R112): one pass that takes bytes and
builds the record, without an instruction in between. `decodeStep` (Machine/Command.lean) is the machine's; that the two
agree is a statement. -/

namespace Sys2Proof.Machine

/-- FormatOf (R112), for valid icodes only. -/
def algFormatOf (icode : Nibble) : Fmt :=
  if [0x0, 0x1, 0x9].contains icode.toNat then .B
  else if [0x2, 0x6, 0xA, 0xB].contains icode.toNat then .BR
  else if [0x3, 0x4, 0x5].contains icode.toNat then .BRD
  else .BD

/-- Take(n) (R112): up to `n` bytes at CUR, CUR moved past them, and whether all `n` were there. -/
def algTake (n : Nat) (s : State) : List Byte × Bool × State :=
  let k := min n (s.len.toNat - s.cur.toNat)
  (readBytes s s.cur.toNat k, k == n, setCur (s.cur + BitVec.ofNat 64 k) s)

/-- The while loop of step 1 (R112), at most `n` turns. -/
def algSkip : Nat → State → State
  | 0, s => s
  | n + 1, s =>
    if s.cur < s.len ∧ engineByte s .skip s.cur.toNat = 0 then algSkip n (setCur (s.cur + 1) s) else s

/-- The local variables of the pseudocode after steps 4 to 6. -/
structure AlgFields where
  span : List Byte
  ra : Nibble
  rb : Nibble
  d : Word
  complete : Bool
  fmt : Fmt

/-- Step 4, the register byte (R112). -/
def algRegByte (icode : Nibble) (f : AlgFields) (s : State) : AlgFields × State :=
  if hasReg icode then
    match algTake 1 s with
    | (b1 :: t, ok, s') => ({ f with span := f.span ++ b1 :: t, complete := ok, ra := hiNibble b1, rb := loNibble b1 }, s')
    | ([], ok, s') => ({ f with complete := ok }, s')
  else (f, s)

/-- Step 5, the D field (R112). -/
def algDField (icode : Nibble) (f : AlgFields) (s : State) : AlgFields × State :=
  if hasD icode && f.complete then
    match algTake 8 s with
    | (t, ok, s') => ({ f with span := f.span ++ t, complete := ok, d := le t }, s')
  else (f, s)

/-- Step 6, the recovery slot (R112). -/
def algRecovery (f : AlgFields) (s : State) : AlgFields × State :=
  match algTake 7 s with
  | (t, ok, s') => ({ f with span := f.span ++ t, complete := ok, d := le (f.span ++ t), fmt := .INV }, s')

/-- Steps 4 to 6 of the pseudocode (R112) after the first byte. -/
def algFields (b0 : Byte) (s : State) : AlgFields × State :=
  let f : AlgFields := { span := [b0], ra := 0xF, rb := 0xF, d := 0, complete := true, fmt := .B }
  let icode := hiNibble b0
  if validCode icode (loNibble b0) then
    let (f1, s1) := algRegByte icode f s
    let (f2, s2) := algDField icode f1 s1
    ({ f2 with fmt := algFormatOf icode }, s2)
  else algRecovery f s

/-- DecodeStep (R112), the pseudocode. The free values' draw counter moves at the end. -/
def algDecodeStep (s : State) : State :=
  let s1 := if s.phase = .lead then algSkip (s.len.toNat - s.cur.toNat) s else s
  let t :=
    if s1.cur = s1.len then
      { s1 with phase := .exh, recValid := false, eos := true, trunc := false, invalid := false }
    else
      match algTake 1 s1 with
      | ([], _, _) => s1
      | (b0 :: _, _, s2) =>
        let (f, s3) := algFields b0 s2
        let valid := validCode (hiNibble b0) (loNibble b0)
        { s3 with
          record := {
            addr := s1.base + s1.cur, icode := hiNibble b0, ifun := loNibble b0, ra := f.ra, rb := f.rb, d := f.d
            span := spanCells f.span, spanLen := BitVec.ofNat 4 f.span.length
            fmt := f.fmt, valid := valid, trunc := !f.complete }
          recValid := true, eos := false, trunc := !f.complete, invalid := !valid
          phase := if f.complete then .run else .exh }
  { t with draws := s.draws + 1 }

end Sys2Proof.Machine
end

