-- ==== Sys2Proof/Machine/Formatter.lean ====
section
/-! DEFINITION. The software wrapper's formatter (spec/48_wrapper_formatter.md). NOT HARDWARE: the step never calls it
(R6 (a), R230). It is a pure function from a record and a history to a line, nothing or a refusal, and the new history
(R231). Text is a list of characters. -/

namespace Sys2Proof.Machine

/-- Text of the wrapper's output. -/
abbrev Text := List Char

/-- The wrapper's OPEN parameters (R10). -/
structure WrapperParams where
  /-- REG_INVALID_TEXT, the whole marker for register code 15 (R236) -/
  regInvalidText : Text
  /-- TRUNC_BODY, the body of a truncated record's line; `none` when it is not fixed (R243) -/
  truncBody : Option Text
deriving DecidableEq, Repr

/-- H, the wrapper's one item of history (R241). -/
inductive History where
  | none | halt | other
deriving DecidableEq, Repr

/-- What formatting one record gives (R230). -/
inductive FormatResult where
  /-- one line, its line feed included -/
  | line (t : Text)
  /-- nothing: a suppressed halt (R241) or a record without a byte (R244) -/
  | nothing
  /-- a refusal naming the record's address (R240, R243) -/
  | refused (addr : Word)
deriving DecidableEq, Repr

/-- One hexadecimal digit of a number below 16. -/
def hexDigit (upper : Bool) (n : Nat) : Char :=
  (if upper then "0123456789ABCDEF".toList else "0123456789abcdef".toList).getD n '0'

/-- `n` hexadecimal digits of a number, the most significant first, zero-padded. -/
def hexDigits (upper : Bool) : Nat → Nat → Text
  | 0, _ => []
  | n + 1, v => hexDigits upper n (v / 16) ++ [hexDigit upper (v % 16)]

/-- Hex16 (R233): exactly 16 lowercase hex digits. -/
def hex16 (a : Word) : Text := hexDigits false 16 a.toNat

/-- HexBytes (R234): each byte as two uppercase hex digits, no separator. -/
def hexBytes (bs : List Byte) : Text := bs.flatMap fun b => hexDigits true 2 b.toNat

/-- Hex (R237): "0x" and the lowercase hex digits without leading zeros, "0x0" for zero. -/
def hexValue (v : Word) : Text :=
  "0x".toList ++ (if v = 0 then ['0'] else (hex16 v).dropWhile (· == '0'))

/-- PadRight (R232): spaces up to `n` characters; it never truncates. -/
def padRight (t : Text) (n : Nat) : Text := t ++ List.replicate (n - t.length) ' '

/-- The names of register codes 0 to 14 (R236; from general knowledge but for 0 and 2, G4). -/
def regNames : List Text :=
  ["rax".toList, "rcx".toList, "rdx".toList, "rbx".toList, "rsp".toList, "rbp".toList, "rsi".toList, "rdi".toList] ++
  ["r8".toList, "r9".toList, "r10".toList, "r11".toList, "r12".toList, "r13".toList, "r14".toList]

/-- Reg (R236): "%" and the name; code 15 is the invalid-register marker. -/
def regText (p : WrapperParams) (c : Nibble) : Text :=
  match regNames[c.toNat]? with
  | some n => '%' :: n
  | none => p.regInvalidText

/-- The parameter's one condition: the marker differs from every named register (R236). -/
def paramsOk (p : WrapperParams) : Bool := regNames.all fun n => p.regInvalidText != '%' :: n

/-- The mnemonic of a valid first byte (R238, R93); none for OP with IFUN 4 to 6 (R240). -/
def mnemonicText (icode ifun : Nibble) : Option Text :=
  match (byteOf icode ifun).toNat with
  | 0x00 => some "halt".toList
  | 0x10 => some "nop".toList
  | 0x20 => some "rrmovq".toList
  | 0x21 => some "cmovle".toList
  | 0x22 => some "cmovl".toList
  | 0x23 => some "cmove".toList
  | 0x24 => some "cmovne".toList
  | 0x25 => some "cmovge".toList
  | 0x26 => some "cmovg".toList
  | 0x30 => some "irmovq".toList
  | 0x40 => some "rmmovq".toList
  | 0x50 => some "mrmovq".toList
  | 0x60 => some "addq".toList
  | 0x61 => some "subq".toList
  | 0x62 => some "andq".toList
  | 0x63 => some "xorq".toList
  | 0x70 => some "jmp".toList
  | 0x71 => some "jle".toList
  | 0x72 => some "jl".toList
  | 0x73 => some "je".toList
  | 0x74 => some "jne".toList
  | 0x75 => some "jge".toList
  | 0x76 => some "jg".toList
  | 0x80 => some "call".toList
  | 0x90 => some "ret".toList
  | 0xA0 => some "pushq".toList
  | 0xB0 => some "popq".toList
  | _ => none

/-- Operands (R239), per class. -/
def operandText (p : WrapperParams) (r : Record) : Text :=
  let rA := regText p r.ra
  let rB := regText p r.rb
  let d := hexValue r.d
  match r.icode.toNat with
  | 0x2 | 0x6 => rA ++ ", ".toList ++ rB
  | 0x3 => "$".toList ++ d ++ ", ".toList ++ rB
  | 0x4 => rA ++ ",".toList ++ d ++ "(".toList ++ rB ++ ")".toList
  | 0x5 => d ++ "(".toList ++ rB ++ "), ".toList ++ rA
  | 0x7 | 0x8 => d
  | 0xA | 0xB => rA
  | _ => []

/-- The consumed bytes of a record: the first SPAN_LEN cells of SPAN (R27). -/
def spanBytes (r : Record) : List Byte := r.span.toList.take r.spanLen.toNat

/-- The line with a given body (R232), its line feed last. -/
def lineWith (r : Record) (body : Text) : Text :=
  hex16 r.addr ++ ": ".toList ++ padRight (hexBytes (spanBytes r)) 22 ++ body ++ ['\n']

/-- The body of a record's line, or none where the wrapper refuses the record: OP with IFUN 4 to 6 (R240), a truncated
record without TRUNC_BODY (R243); otherwise R235 and R242. A truncated OP with IFUN 4 to 6 is refused (log entry 14). -/
def bodyText (p : WrapperParams) (r : Record) : Option Text :=
  if r.valid then
    match mnemonicText r.icode r.ifun with
    | none => none
    | some m => if r.trunc then p.truncBody else some (padRight m 8 ++ operandText p r)
  else if r.trunc then p.truncBody
  else some (padRight ".quad".toList 8 ++ hexValue r.d)

/-- Whether a record is a valid halt (R241). -/
def isHaltRecord (r : Record) : Bool := r.valid && r.icode == 0

/-- The history after a record (R241). -/
def nextHistory (r : Record) : History := if isHaltRecord r then .halt else .other

/-- The formatter (R230, R241, R244). -/
def formatRecord (p : WrapperParams) (h : History) (r : Record) : FormatResult × History :=
  let result :=
    if r.spanLen = 0 then FormatResult.nothing
    else if isHaltRecord r && h == .halt then .nothing
    else
      match bodyText p r with
      | some b => .line (lineWith r b)
      | none => .refused r.addr
  (result, nextHistory r)

/-- H at the start of each stream (R241, R302). -/
def startHistory : History := .none

/-- H after a list of records (R241). -/
def historyAfter (h : History) (rs : List Record) : History := rs.foldl (fun _ r => nextHistory r) h

/-- The formatter applied to consecutive records from a history on, the history threaded through (R245). -/
def formatStream (p : WrapperParams) : History → List Record → List FormatResult
  | _, [] => []
  | h, r :: rs => (formatRecord p h r).1 :: formatStream p (formatRecord p h r).2 rs

/-- What the wrapper prints for the records of one whole stream: the history is NONE at its start, whatever an earlier
stream left (R241, R302). -/
def formatRun (p : WrapperParams) (rs : List Record) : List FormatResult := formatStream p startHistory rs

end Sys2Proof.Machine
end

