-- ==== Sys2Proof/Machine/Wrapper.lean ====
section
/-! DEFINITION. The software wrapper's history across the host's actions (R241, R302). NOT HARDWARE, like the formatter:
the history is no part of State (R36), and the step never calls this. -/

namespace Sys2Proof.Machine

/-- Whether an action begins a stream: a write to CTRL with the START bit (R31), taken while no command is in
progress. -/
def beginsStream (a : HostAction) (s : State) : Bool :=
  match a with
  | .regWrite 0x00 8 v => !s.busy && v.getLsbD 0
  | _ => false

/-- Whether an action is a STEP that the block performs (R31, R111). -/
def performsStep (a : HostAction) (s : State) : Bool :=
  match a with
  | .regWrite 0x00 8 v => !s.busy && !v.getLsbD 0 && v.getLsbD 1 && streaming s
  | _ => false

/-- What the wrapper does when the host's action `a` has led from `s` to `t`: at the start of a stream it sets its history
to NONE (R241, R302); after a STEP that left a record it formats that record (R129, R230); otherwise, at the block's reset
too, it prints nothing and keeps its history (R302). -/
def wrapperStep (p : WrapperParams) (a : HostAction) (s t : State) (h : History) : Option FormatResult × History :=
  if beginsStream a s then (none, startHistory)
  else if performsStep a s && t.recValid then (some (formatRecord p h t.record).1, (formatRecord p h t.record).2)
  else (none, h)

end Sys2Proof.Machine
end

