-- ==== Sys2Proof/Safety.lean ====
section
/-! DEFINITION. The terms claims use: the invariants (R39), the host's protocol (R310 to R313), one host action taken
alone, and the run of a stream (R124, R129). -/

namespace Sys2Proof.Machine

/-! ### Invariants -/

/-- The first byte a record reports: ICODE and IFUN (R81). -/
def Record.firstByte (r : Record) : Byte := byteOf r.icode r.ifun

/-- R39 (1): CUR ≤ LEN while a stream is running. -/
def State.cursorInStream (s : State) : Prop := streaming s = true → s.cur ≤ s.len

/-- R39 (2): a delivered record has 1 to 10 bytes. -/
def State.spanInRange (s : State) : Prop := s.recValid = true → 1 ≤ s.record.spanLen ∧ s.record.spanLen ≤ 10

/-- R39 (3): a delivered, complete record has the length its first byte determines. -/
def State.spanIsClassLength (s : State) : Prop :=
  s.recValid = true → s.record.trunc = false → s.record.spanLen.toNat = lengthOf s.record.firstByte

/-- R39 (5): EOS goes with no record. -/
def State.eosHasNoRecord (s : State) : Prop := s.eos = true → s.recValid = false

/-- The state invariants of R39, less (4), which is about steps. -/
def State.streamInv (s : State) : Prop :=
  s.cursorInStream ∧ s.spanInRange ∧ s.spanIsClassLength ∧ s.eosHasNoRecord

/-- STATUS.TRUNC and STATUS.INVALID describe the last record when there is one, and read 0 when there is none (R32,
R110, R112). -/
def State.statusDescribesRecord (s : State) : Prop :=
  s.trunc = (s.recValid && s.record.trunc) ∧ s.invalid = (s.recValid && !s.record.valid)

/-- The span cells at or past SPAN_LEN hold 0x00 (R27). -/
def Record.cellsPastSpanZero (r : Record) : Prop :=
  ∀ k : Fin 10, r.spanLen.toNat ≤ k.val → r.span[k.val] = 0

/-- The fields of a record fit its format (R27, R88, R90, R116, R119): FMT is what the first byte determines, VALID says
whether the first byte is valid, a format without a register byte has RA = RB = 0xF, a format without D or raw value has
D = 0. -/
def Record.fitsFormat (r : Record) : Prop :=
  r.fmt = formatOf r.firstByte ∧ r.valid = validByte r.firstByte ∧
  (fmtHasReg r.fmt = false → r.ra = Config.noReg ∧ r.rb = Config.noReg) ∧
  (r.fmt = .B ∨ r.fmt = .BR → r.d = 0)

/-- What each PHASE says of the last STEP (R24, R118, R120): in RUN the last record is there and complete, in LEAD and
IDLE there is none and no EOS, in EXH the stream ended in EOS or in a truncated record. -/
def State.phaseMatchesStatus (s : State) : Prop :=
  match s.phase with
  | .run => s.recValid = true ∧ s.record.trunc = false
  | .lead | .idle => s.recValid = false ∧ s.eos = false
  | .exh => (s.eos = true ∧ s.recValid = false) ∨ (s.recValid = true ∧ s.record.trunc = true)

/-- A rising list without repeats. -/
def risingFrom : Nat → List Nat → Bool
  | _, [] => true
  | lo, a :: l => lo ≤ a && risingFrom (a + 1) l

/-- The model's own data is in its canonical form: the buffer, and the dirty indices. -/
def State.canonical (s : State) : Prop := s.buf.wf = true ∧ risingFrom 0 s.dirty = true

/-- A running stream is no longer than MAX_LEN (R33, R110). -/
def State.streamReachable (s : State) : Prop := streaming s = true → s.len ≤ s.maxLen

/-- No command is in progress between steps (R67, R311). -/
def State.notBusy (s : State) : Prop := s.busy = false

/-- All the invariants together. -/
def State.inv (s : State) : Prop :=
  s.streamInv ∧ s.statusDescribesRecord ∧ s.record.cellsPastSpanZero ∧ s.phaseMatchesStatus ∧
  (s.recValid = true → s.record.fitsFormat) ∧ s.streamReachable ∧ s.notBusy ∧ s.canonical

/-! ### One host action alone, and a whole stream -/

/-- The step in which the host does `a` and has nothing else pending. -/
def issue (a : HostAction) (s : State) : Outcome := step { s with host := [a] }

/-- The host's loop (R129) from a state whose stream has begun, at most `n` STEPs: the records it reads, in order, and
the state it ends in. -/
def runStream : Nat → State → List Record × State
  | 0, s => ([], s)
  | n + 1, s =>
    if s.phase = .exh then ([], s)
    else
      match issue HostAction.stepCmd s with
      | .next t => ((if t.recValid then [t.record] else []) ++ (runStream n t).1, (runStream n t).2)
      | .fault _ | .refused _ => ([], s)

/-- The host's loop with its formatter (R129), at most `n` STEPs: what the wrapper prints, and its history at the end. -/
def runWrapper (p : WrapperParams) : Nat → History → State → List FormatResult × History
  | 0, h, _ => ([], h)
  | n + 1, h, s =>
    if s.phase = .exh then ([], h)
    else
      match issue HostAction.stepCmd s with
      | .next t =>
        let (o, h') := wrapperStep p HostAction.stepCmd s t h
        (o.toList ++ (runWrapper p n h' t).1, (runWrapper p n h' t).2)
      | .fault _ | .refused _ => ([], h)

/-- The sum of the SPAN_LENs of a list of records (R125). -/
def spanTotal (rs : List Record) : Nat := (rs.map fun r => r.spanLen.toNat).sum

/-- The records' addresses follow one another from `a` on: each is the one before it plus that one's SPAN_LEN, modulo
2^64 (R126). -/
def addressesFrom : Word → List Record → Prop
  | _, [] => True
  | a, r :: rs => r.addr = a ∧ addressesFrom (a + BitVec.ofNat 64 r.spanLen.toNat) rs

/-! ### The host's protocol -/

/-- The host keeps its duties with an action in a state: no BUF write inside the stream while it runs (R310), no BASE or
LEN write while it runs (R33), no STEP before START or after exhaustion (R301, R313), accesses whole and inside the
register map (R30). -/
def keepsProtocol (s : State) : HostAction → Bool
  | .reset => true
  | .bufWrite i _ => !(streaming s && i < s.len)
  | .regRead offset width => wholeAccess offset width && offset < 0x80
  | .regWrite offset width v =>
    wholeAccess offset width && offset < 0x80 &&
    !(streaming s && (offset == 0x10 || offset == 0x18)) &&
    !(offset == 0 && v.getLsbD 0 && s.maxLen < s.len) &&
    !(offset == 0 && !v.getLsbD 0 && v.getLsbD 1 && !streaming s)

/-- The stream's bytes are undisturbed: the host has written none of them since START (R70). -/
def State.undisturbed (s : State) : Prop := ∀ i, i < s.len.toNat → s.dirty.contains i = false

end Sys2Proof.Machine
end

