-- ==== Sys2Proof/Certificates/Slice0/Obligations.lean ====
section
/-! DEFINITION. The statements about the model, and the words they are made of. -/

namespace Sys2Proof.Claims

open Sys2Proof.Machine

/-! ### What an instruction delivers (R112 step 7, R120, R122) -/

/-- The state after a complete record of `n` bytes. -/
def completed (s : State) (n : Nat) (r : Record) : State :=
  { s with
    cur := s.cur + BitVec.ofNat 64 n, phase := .run, record := r
    recValid := true, eos := false, trunc := false, invalid := !r.valid }

/-- The state after a truncated record: CUR = LEN and the stream is exhausted (R118). -/
def cutShort (s : State) (r : Record) : State :=
  { s with
    cur := s.len, phase := .exh, record := r
    recValid := true, eos := false, trunc := true, invalid := !r.valid }

/-- Byte `j` of a D field (R88). -/
def dByte (d : Word) (j : Nat) : Byte := d.extractLsb' (8 * j) 8

/-- Format B: with one byte left or more, the record of a whole instruction; it cannot be truncated. -/
def DeliversB (i : Instr) (icode ifun : Nibble) : Prop :=
  ∀ s : State, s.cur.toNat + 1 ≤ s.len.toNat →
    exec i s = .next (completed s 1 {
      addr := s.base + s.cur, icode := icode, ifun := ifun, ra := 0xF, rb := 0xF, d := 0
      span := #v[byteOf icode ifun, 0, 0, 0, 0, 0, 0, 0, 0, 0], spanLen := 1
      fmt := .B, valid := true, trunc := false })

/-- Format BR with both bytes there: the record holds the two nibbles, D = 0. -/
def CompletesBR (mk : Nibble → Nibble → Instr) (icode ifun : Nibble) : Prop :=
  ∀ (ra rb : Nibble) (s : State), s.cur.toNat + 2 ≤ s.len.toNat →
    exec (mk ra rb) s = .next (completed s 2 {
      addr := s.base + s.cur, icode := icode, ifun := ifun, ra := ra, rb := rb, d := 0
      span := #v[byteOf icode ifun, byteOf ra rb, 0, 0, 0, 0, 0, 0, 0, 0], spanLen := 2
      fmt := .BR, valid := true, trunc := false })

/-- Format BR with the first byte alone: RA = RB = 0xF, TRUNC 1. -/
def TruncatesBR (mk : Nibble → Nibble → Instr) (icode ifun : Nibble) : Prop :=
  ∀ (ra rb : Nibble) (s : State), s.cur.toNat + 1 = s.len.toNat →
    exec (mk ra rb) s = .next (cutShort s {
      addr := s.base + s.cur, icode := icode, ifun := ifun, ra := 0xF, rb := 0xF, d := 0
      span := #v[byteOf icode ifun, 0, 0, 0, 0, 0, 0, 0, 0, 0], spanLen := 1
      fmt := .BR, valid := true, trunc := true })

/-- Format BRD with all ten bytes there. -/
def CompletesBRD (mk : Nibble → Nibble → Word → Instr) (icode ifun : Nibble) : Prop :=
  ∀ (ra rb : Nibble) (d : Word) (s : State), s.cur.toNat + 10 ≤ s.len.toNat →
    exec (mk ra rb d) s = .next (completed s 10 {
      addr := s.base + s.cur, icode := icode, ifun := ifun, ra := ra, rb := rb, d := d
      span := #v[byteOf icode ifun, byteOf ra rb, dByte d 0, dByte d 1, dByte d 2, dByte d 3, dByte d 4, dByte d 5,
        dByte d 6, dByte d 7]
      spanLen := 10, fmt := .BRD, valid := true, trunc := false })

/-- Format BRD with `n` of the ten bytes there: RA = RB = 0xF when the register byte is missing, D is the value of the
D bytes present, its missing high bytes 0 (R123). -/
def TruncatesBRD (mk : Nibble → Nibble → Word → Instr) (icode ifun : Nibble) : Prop :=
  ∀ (ra rb : Nibble) (d : Word) (s : State) (n : Nat), 1 ≤ n → n ≤ 9 → s.cur.toNat + n = s.len.toNat →
    exec (mk ra rb d) s = .next (cutShort s {
      addr := s.base + s.cur, icode := icode, ifun := ifun
      ra := if n = 1 then 0xF else ra, rb := if n = 1 then 0xF else rb
      d := BitVec.ofNat 64 (d.toNat % 2 ^ (8 * (n - 2)))
      span := spanCells ((layoutBRD (byteOf icode ifun) ra rb d).take n), spanLen := BitVec.ofNat 4 n
      fmt := .BRD, valid := true, trunc := true })

/-- Format BD with all nine bytes there. -/
def CompletesBD (mk : Word → Instr) (icode ifun : Nibble) : Prop :=
  ∀ (d : Word) (s : State), s.cur.toNat + 9 ≤ s.len.toNat →
    exec (mk d) s = .next (completed s 9 {
      addr := s.base + s.cur, icode := icode, ifun := ifun, ra := 0xF, rb := 0xF, d := d
      span := #v[byteOf icode ifun, dByte d 0, dByte d 1, dByte d 2, dByte d 3, dByte d 4, dByte d 5, dByte d 6,
        dByte d 7, 0]
      spanLen := 9, fmt := .BD, valid := true, trunc := false })

/-- Format BD with `n` of the nine bytes there. -/
def TruncatesBD (mk : Word → Instr) (icode ifun : Nibble) : Prop :=
  ∀ (d : Word) (s : State) (n : Nat), 1 ≤ n → n ≤ 8 → s.cur.toNat + n = s.len.toNat →
    exec (mk d) s = .next (cutShort s {
      addr := s.base + s.cur, icode := icode, ifun := ifun, ra := 0xF, rb := 0xF
      d := BitVec.ofNat 64 (d.toNat % 2 ^ (8 * (n - 1)))
      span := spanCells ((layoutBD (byteOf icode ifun) d).take n), spanLen := BitVec.ofNat 4 n
      fmt := .BD, valid := true, trunc := true })

/-- The first bytes with high nibble `icode` and a low nibble of `lo` or more are invalid and take 8 bytes. -/
def InvalidFrom (icode : Nibble) (lo : Nat) : Prop :=
  ∀ f : Nibble, lo ≤ f.toNat →
    validByte (byteOf icode f) = false ∧ lengthOf (byteOf icode f) = 8 ∧ formatOf (byteOf icode f) = .INV

/-- The bytes the stream still holds from an index on, as the engine reads them (R62). -/
def streamFrom (s : State) (i : Nat) : List Byte := readBytes s i (remaining s i)

/-- The state in which `exec` runs the instruction of a STEP: the action is taken off the host's list, CUR stands at the
first byte, and one draw of the free values is used up. -/
def atInstruction (s : State) (rest : List HostAction) (z : Nat) : State :=
  { s with host := rest, cur := s.cur + BitVec.ofNat 64 z, draws := s.draws + 1 }

/-- The state a STEP leaves at end-of-stream (R114): no record, REC unchanged, CUR = LEN. -/
def endedStream (s : State) (rest : List HostAction) : State :=
  { s with
    host := rest, draws := s.draws + 1, cur := s.len, phase := .exh
    recValid := false, eos := true, trunc := false, invalid := false }

/-- A STEP reads the same of two states: the inputs R127 names. -/
def SameDecodeInputs (s t : State) : Prop :=
  s.phase = t.phase ∧ s.cur = t.cur ∧ s.base = t.base ∧ s.len = t.len ∧
  ∀ k i, s.cur.toNat ≤ i → i < s.len.toNat → engineByte s k i = engineByte t k i

/-- The number of 0x00 bytes that stand before the stream's first other byte. -/
def IsLeadingZeroCount (s : State) (z : Nat) : Prop :=
  z ≤ s.len.toNat ∧ (∀ j, j < z → s.buf.read j = 0) ∧ (z < s.len.toNat → s.buf.read z ≠ 0)

/-- The host action is a START: a write to CTRL with bit 0 set (R31). -/
def IsStart (a : HostAction) : Prop := ∃ v : Word, a = .regWrite 0x00 8 v ∧ v.getLsbD 0 = true

/-- Reading a register answers `v`, and nothing else changes than what the port gave the host (R30). -/
def ReadsAs (s : State) (offset : Nat) (v : Word) : Prop :=
  issue (.regRead offset 8) s = .next { s with host := [], portData := v }

/-- Reading a register while BUSY = 1 answers `v`, and nothing else changes but the draw counter (R311 (a)). -/
def ReadsFreely (s : State) (offset : Nat) (v : Word) : Prop :=
  issue (.regRead offset 8) s = .next { s with host := [], portData := v, draws := s.draws + 1 }

end Sys2Proof.Claims

open Sys2Proof Sys2Proof.Machine Sys2Proof.Claims

/-! ### Encoding -/

/-- Decoding the encoding of a well-formed instruction, whatever follows it, gives the instruction back. -/
def Obligations.DecodeOfEncodeGivesInstrBack : Prop :=
  ∀ (i : Instr) (rest : List Byte), i.wellFormed = true → decode (encode i ++ rest) = .ok (i, rest)

/-- What the decoder accepts is well-formed and its encoding is exactly the bytes it was read from: each byte sequence
has one decode and no bit of it is dropped. -/
def Obligations.EncodeOfDecodeGivesBytesBack : Prop :=
  ∀ (bs rest : List Byte) (i : Instr), decode bs = .ok (i, rest) → i.wellFormed = true ∧ encode i ++ rest = bs

/-- Words written out from the spec's encodings decode to the instructions they stand for, one of each family. -/
def Obligations.WrittenWordsDecodeToTheirInstr : Prop :=
  decode [0x10] = .ok (.nop, []) ∧
  decode [0x20, 0x02] = .ok (.rrmovq 0 2, []) ∧
  decode [0x30, 0xF2, 0x10, 0, 0, 0, 0, 0, 0, 0] = .ok (.irmovq 0xF 2 0x10, []) ∧
  decode [0x64, 0x12, 0x90] = .ok (.op4 1 2, [0x90]) ∧
  decode [0x70, 0x00, 0x01, 0, 0, 0, 0, 0, 0] = .ok (.jmp 0x100, []) ∧
  decode [0xA0, 0x0F] = .ok (.pushq 0 0xF, []) ∧
  decode [0xF0, 1, 2, 3, 4, 5, 6, 7] = .ok (.quad 0xF0 0x07060504030201, [])

/-- R220: a first byte is invalid exactly when Valid is false; there are 226 such values, 64 with ICODE 0xC to 0xF, 135
of the classes without variants, 27 of the classes with seven. -/
def Obligations.InvalidFirstBytesAreThe226 : Prop :=
  (∀ b0 : Byte, formatOf b0 = .INV ↔ validCode (hiNibble b0) (loNibble b0) = false) ∧
  (∀ b0 : Byte, validCode (hiNibble b0) (loNibble b0) = false ↔
    0xC ≤ (hiNibble b0).toNat ∨
    ([0, 1, 3, 4, 5, 8, 9, 0xA, 0xB].contains (hiNibble b0).toNat = true ∧ 1 ≤ (loNibble b0).toNat) ∨
    ([2, 6, 7].contains (hiNibble b0).toNat = true ∧ 7 ≤ (loNibble b0).toNat)) ∧
  ((List.range 256).filter fun n => !validByte (BitVec.ofNat 8 n)).length = 226 ∧
  ((List.range 256).filter fun n => decide (0xC0 ≤ n)).length = 64 ∧
  ((List.range 256).filter fun n =>
    [0, 1, 3, 4, 5, 8, 9, 0xA, 0xB].contains (n / 16) && decide (1 ≤ n % 16)).length = 135 ∧
  ((List.range 256).filter fun n => [2, 6, 7].contains (n / 16) && decide (7 ≤ n % 16)).length = 27

/-- The length of an instruction is a function of its first byte alone (R96): the decoder takes `lengthOf b0` bytes when
they are there, and otherwise rejects by name, and the length is 1, 2, 9, 10 for a valid first byte by its class and 8
for an invalid one. -/
def Obligations.FirstByteAloneFixesLength : Prop :=
  (∀ (b0 : Byte) (rest : List Byte), lengthOf b0 ≤ rest.length + 1 →
    ∃ i, decode (b0 :: rest) = .ok (i, rest.drop (lengthOf b0 - 1)) ∧ (encode i).length = lengthOf b0 ∧
      (encode i).head? = some b0) ∧
  (∀ (b0 : Byte) (rest : List Byte), rest.length + 1 < lengthOf b0 →
    decode (b0 :: rest) = .error (.truncated (lengthOf b0) (rest.length + 1))) ∧
  (∀ b0 : Byte, validByte b0 = true →
    (lengthOf b0 = 1 ↔ (hiNibble b0).toNat ∈ [0x0, 0x1, 0x9]) ∧
    (lengthOf b0 = 2 ↔ (hiNibble b0).toNat ∈ [0x2, 0x6, 0xA, 0xB]) ∧
    (lengthOf b0 = 9 ↔ (hiNibble b0).toNat ∈ [0x7, 0x8]) ∧
    (lengthOf b0 = 10 ↔ (hiNibble b0).toNat ∈ [0x3, 0x4, 0x5])) ∧
  (∀ b0 : Byte, validByte b0 = false → lengthOf b0 = 8)

/-! ### The instructions -/

/-- halt and nop deliver their records whenever a byte is left, the stream continues after them, and their neighbours are
invalid. -/
def Obligations.HaltAndNopDeliverRecords : Prop :=
  DeliversB .halt 0x0 0x0 ∧ DeliversB .nop 0x1 0x0 ∧ InvalidFrom 0x0 1 ∧ InvalidFrom 0x1 1

/-- R160 and R161 to R167: every RRMOV copies both nibbles of the register byte, is truncated when the register byte is
missing, and 0x27 to 0x2F are invalid. -/
def Obligations.RegisterMovesDeliverRecords : Prop :=
  (CompletesBR .rrmovq 0x2 0x0 ∧ CompletesBR .cmovle 0x2 0x1 ∧ CompletesBR .cmovl 0x2 0x2 ∧
   CompletesBR .cmove 0x2 0x3 ∧ CompletesBR .cmovne 0x2 0x4 ∧ CompletesBR .cmovge 0x2 0x5 ∧
   CompletesBR .cmovg 0x2 0x6) ∧
  (TruncatesBR .rrmovq 0x2 0x0 ∧ TruncatesBR .cmovle 0x2 0x1 ∧ TruncatesBR .cmovl 0x2 0x2 ∧
   TruncatesBR .cmove 0x2 0x3 ∧ TruncatesBR .cmovne 0x2 0x4 ∧ TruncatesBR .cmovge 0x2 0x5 ∧
   TruncatesBR .cmovg 0x2 0x6) ∧
  InvalidFrom 0x2 7

/-- irmovq, rmmovq and mrmovq deliver rA, rB and the unsigned D, and with 1 to 9 bytes left the truncated records of
R168; 0x31 to 0x3F, 0x41 to 0x4F and 0x51 to 0x5F are invalid. -/
def Obligations.ImmediateAndMemoryMovesDeliver : Prop :=
  (CompletesBRD .irmovq 0x3 0x0 ∧ CompletesBRD .rmmovq 0x4 0x0 ∧ CompletesBRD .mrmovq 0x5 0x0) ∧
  (TruncatesBRD .irmovq 0x3 0x0 ∧ TruncatesBRD .rmmovq 0x4 0x0 ∧ TruncatesBRD .mrmovq 0x5 0x0) ∧
  InvalidFrom 0x3 1 ∧ InvalidFrom 0x4 1 ∧ InvalidFrom 0x5 1

/-- R180 and R181 to R187: every OP, the three without a mnemonic among them, is a valid two-byte record; its truncated
case; 0x67 to 0x6F are invalid. -/
def Obligations.ArithmeticDeliversRecords : Prop :=
  (CompletesBR .addq 0x6 0x0 ∧ CompletesBR .subq 0x6 0x1 ∧ CompletesBR .andq 0x6 0x2 ∧ CompletesBR .xorq 0x6 0x3 ∧
   CompletesBR .op4 0x6 0x4 ∧ CompletesBR .op5 0x6 0x5 ∧ CompletesBR .op6 0x6 0x6) ∧
  (TruncatesBR .addq 0x6 0x0 ∧ TruncatesBR .subq 0x6 0x1 ∧ TruncatesBR .andq 0x6 0x2 ∧ TruncatesBR .xorq 0x6 0x3 ∧
   TruncatesBR .op4 0x6 0x4 ∧ TruncatesBR .op5 0x6 0x5 ∧ TruncatesBR .op6 0x6 0x6) ∧
  InvalidFrom 0x6 7

/-- R191 to R199: every jump and call delivers its absolute target and moves CUR past its nine bytes; the truncated
cases; 0x77 to 0x7F and 0x81 to 0x8F are invalid. -/
def Obligations.JumpsAndCallDeliverRecords : Prop :=
  (CompletesBD .jmp 0x7 0x0 ∧ CompletesBD .jle 0x7 0x1 ∧ CompletesBD .jl 0x7 0x2 ∧ CompletesBD .je 0x7 0x3 ∧
   CompletesBD .jne 0x7 0x4 ∧ CompletesBD .jge 0x7 0x5 ∧ CompletesBD .jg 0x7 0x6 ∧ CompletesBD .call 0x8 0x0) ∧
  (TruncatesBD .jmp 0x7 0x0 ∧ TruncatesBD .jle 0x7 0x1 ∧ TruncatesBD .jl 0x7 0x2 ∧ TruncatesBD .je 0x7 0x3 ∧
   TruncatesBD .jne 0x7 0x4 ∧ TruncatesBD .jge 0x7 0x5 ∧ TruncatesBD .jg 0x7 0x6 ∧ TruncatesBD .call 0x8 0x0) ∧
  InvalidFrom 0x7 7 ∧ InvalidFrom 0x8 1

/-- R200: ret delivers its record, cannot be truncated, the stream continues, and 0x91 to 0x9F are invalid. -/
def Obligations.ReturnDeliversRecord : Prop := DeliversB .ret 0x9 0x0 ∧ InvalidFrom 0x9 1

/-- R210 to R212: push and pop deliver both nibbles, whatever rB is; the truncated case; 0xA1 to 0xAF and 0xB1 to 0xBF
are invalid. -/
def Obligations.PushAndPopDeliverRecords : Prop :=
  CompletesBR .pushq 0xA 0x0 ∧ CompletesBR .popq 0xB 0x0 ∧
  TruncatesBR .pushq 0xA 0x0 ∧ TruncatesBR .popq 0xB 0x0 ∧ InvalidFrom 0xA 1 ∧ InvalidFrom 0xB 1

/-- An invalid first byte with its slot delivers a record with VALID 0, D the little-endian value of the whole span and
CUR eight bytes further; with `n` of the eight bytes left the record is truncated as well (R221, R275). -/
def Obligations.InvalidEncodingDeliversRecord : Prop :=
  (∀ (b0 : Byte) (slot : BitVec 56) (s : State), s.cur.toNat + 8 ≤ s.len.toNat →
    exec (.quad b0 slot) s = .next (completed s 8 {
      addr := s.base + s.cur, icode := hiNibble b0, ifun := loNibble b0, ra := 0xF, rb := 0xF, d := slot ++ b0
      span := #v[b0, slot.extractLsb' 0 8, slot.extractLsb' 8 8, slot.extractLsb' 16 8, slot.extractLsb' 24 8,
        slot.extractLsb' 32 8, slot.extractLsb' 40 8, slot.extractLsb' 48 8, 0, 0]
      spanLen := 8, fmt := .INV, valid := false, trunc := false })) ∧
  (∀ (b0 : Byte) (slot : BitVec 56) (s : State) (n : Nat), 1 ≤ n → n ≤ 7 → s.cur.toNat + n = s.len.toNat →
    exec (.quad b0 slot) s = .next (cutShort s {
      addr := s.base + s.cur, icode := hiNibble b0, ifun := loNibble b0, ra := 0xF, rb := 0xF
      d := BitVec.ofNat 64 ((slot ++ b0 : BitVec 64).toNat % 2 ^ (8 * n))
      span := spanCells ((layoutINV b0 slot).take n), spanLen := BitVec.ofNat 4 n
      fmt := .INV, valid := false, trunc := true }))

/-- The frame of every instruction: it always answers a next state, and that state differs from the one before only in
CUR, REC, PHASE and the STATUS bits REC_VALID, EOS, TRUNC and INVALID; CMD_ERR, BASE, LEN, BUSY and every byte of BUF
stay, and REC itself stays where no record is delivered. -/
def Obligations.InstructionFrame : Prop :=
  ∀ (i : Instr) (s : State), ∃ t, exec i s = .next t ∧
    t.base = s.base ∧ t.len = s.len ∧ t.cmdErr = s.cmdErr ∧ t.busy = s.busy ∧ t.maxLen = s.maxLen ∧
    t.host = s.host ∧ t.portData = s.portData ∧ t.dirty = s.dirty ∧ t.draws = s.draws ∧
    (∀ a, t.buf.read a = s.buf.read a) ∧ (t.recValid = false → t.record = s.record ∧ t.cur = s.cur)

/-- R190: no control is transferred. Whatever the target of a jump or call, CUR, PHASE and STATUS come out the same, in
the complete and in the truncated case, and a whole jump, call or return moves CUR by its own length. -/
def Obligations.TargetNeverMovesTheCursor : Prop :=
  (∀ mk ∈ [Instr.jmp, Instr.jle, Instr.jl, Instr.je, Instr.jne, Instr.jge, Instr.jg, Instr.call],
    ∀ (d d' : Word) (s : State), ∃ t t', exec (mk d) s = .next t ∧ exec (mk d') s = .next t' ∧
      t.cur = t'.cur ∧ t.phase = t'.phase ∧ statusWord t = statusWord t' ∧
      (s.cur.toNat + 9 ≤ s.len.toNat → t.cur = s.cur + 9)) ∧
  ∀ s : State, s.cur.toNat + 1 ≤ s.len.toNat → ∃ t, exec .ret s = .next t ∧ t.cur = s.cur + 1

/-! ### STEP -/

/-- A STEP in the RUN phase runs the instruction the bytes at CUR decode to; where the stream is too short for it, it
runs one whose encoding begins with the bytes that are left. Host actions taken one a step and the draw counter are the
model's (log entries 1 and 5). -/
def Obligations.StepRunsDecodedInstruction : Prop :=
  (∀ (s : State) (hs : List HostAction) (i : Instr) (rest : List Byte),
    s.host = HostAction.stepCmd :: hs → s.busy = false → s.phase = .run →
    decode (streamFrom s s.cur.toNat) = .ok (i, rest) → step s = exec i (atInstruction s hs 0)) ∧
  (∀ (s : State) (hs : List HostAction) (need got : Nat),
    s.host = HostAction.stepCmd :: hs → s.busy = false → s.phase = .run →
    decode (streamFrom s s.cur.toNat) = .error (.truncated need got) →
    ∃ i, i.wellFormed = true ∧ (encode i).length = need ∧ (encode i).take got = streamFrom s s.cur.toNat ∧
      step s = exec i (atInstruction s hs 0))

/-- R113: in the LEAD phase a STEP first skips the 0x00 bytes at CUR, and the same STEP runs the instruction at the first
other byte. -/
def Obligations.FirstStepSkipsLeadingZeros : Prop :=
  ∀ (s : State) (hs : List HostAction) (z : Nat) (i : Instr) (rest : List Byte),
    s.host = HostAction.stepCmd :: hs → s.busy = false → s.phase = .lead →
    (∀ j, j < z → engineByte s .skip (s.cur.toNat + j) = 0) → s.cur.toNat + z < s.len.toNat →
    engineByte s .skip (s.cur.toNat + z) ≠ 0 →
    decode (streamFrom s (s.cur.toNat + z)) = .ok (i, rest) → step s = exec i (atInstruction s hs z)

/-- R114: with no byte left, in RUN at CUR = LEN or in LEAD after the skip, the STEP ends the stream without a record. -/
def Obligations.StepEndsStreamWithoutByte : Prop :=
  (∀ (s : State) (hs : List HostAction),
    s.host = HostAction.stepCmd :: hs → s.busy = false → s.phase = .run → s.cur = s.len →
    step s = .next (endedStream s hs)) ∧
  (∀ (s : State) (hs : List HostAction),
    s.host = HostAction.stepCmd :: hs → s.busy = false → s.phase = .lead → s.cur ≤ s.len →
    (∀ i, s.cur.toNat ≤ i → i < s.len.toNat → engineByte s .skip i = 0) → step s = .next (endedStream s hs))

/-- R112: the decode step is the spec's pseudocode, in every state of a running stream. The draw counter, which both
advance by one, is the model's (log entry 5). -/
def Obligations.DecodeStepIsThePseudocode : Prop :=
  ∀ s : State, streaming s = true → s.cur ≤ s.len → decodeStep s = .next (algDecodeStep s)

/-- R127: what a decode step delivers is a function of PHASE, CUR, BASE, LEN and the bytes from CUR to LEN. -/
def Obligations.DecodeStepIsDetermined : Prop :=
  ∀ s s' : State, SameDecodeInputs s s' → ∃ t t', decodeStep s = .next t ∧ decodeStep s' = .next t' ∧
    t.phase = t'.phase ∧ t.cur = t'.cur ∧ t.recValid = t'.recValid ∧ t.eos = t'.eos ∧ t.trunc = t'.trunc ∧
    t.invalid = t'.invalid ∧ (t.recValid = true → t.record = t'.record)

/-- R273, R275: a STEP reports EOS alone; otherwise INVALID says whether the first byte is invalid, and TRUNC,
independently, whether the stream holds fewer bytes than that byte's length; REC.VALID and REC.TRUNC say the same. -/
def Obligations.StepReportsConditions : Prop :=
  ∀ s t : State, streaming s = true → s.cur ≤ s.len → s.busy = false → issue HostAction.stepCmd s = .next t →
    t.cmdErr = s.cmdErr ∧
    (firstByteIndex s = s.len.toNat →
      t.eos = true ∧ t.recValid = false ∧ t.invalid = false ∧ t.trunc = false ∧ t.phase = .exh) ∧
    (firstByteIndex s < s.len.toNat →
      t.eos = false ∧ t.recValid = true ∧
      t.invalid = !validByte (engineByte s .decode (firstByteIndex s)) ∧ t.record.valid = !t.invalid ∧
      t.trunc = decide (s.len.toNat < firstByteIndex s + lengthOf (engineByte s .decode (firstByteIndex s))) ∧
      t.record.trunc = t.trunc ∧ t.phase = if t.trunc then .exh else .run)

/-- R122: a STEP that delivers a record moves CUR by its SPAN_LEN and the skipped zeros, never backward and never past
LEN; a complete record has the length of its first byte, a truncated one at least a byte and fewer; the record's span is
the bytes between. -/
def Obligations.StepConsumesItsSpan : Prop :=
  ∀ s t : State, streaming s = true → s.cur ≤ s.len → s.busy = false → issue HostAction.stepCmd s = .next t →
    t.recValid = true →
    t.cur.toNat = firstByteIndex s + t.record.spanLen.toNat ∧ s.cur.toNat ≤ firstByteIndex s ∧ t.cur ≤ s.len ∧
    t.record.addr = s.base + BitVec.ofNat 64 (firstByteIndex s) ∧
    (t.record.trunc = false → t.record.spanLen.toNat = lengthOf t.record.firstByte) ∧
    (t.record.trunc = true → 1 ≤ t.record.spanLen.toNat ∧ t.record.spanLen.toNat < lengthOf t.record.firstByte) ∧
    spanBytes t.record = readBytes s (firstByteIndex s) t.record.spanLen.toNat

/-! ### START, the refused STEP, the register port -/

/-- R110: START, in every PHASE, sets CUR to 0, enters LEAD, clears STATUS and REC and leaves BASE, LEN and BUF; a model
refuses it while LEN > MAX_LEN. -/
def Obligations.StartBeginsStream : Prop :=
  (∀ s : State, s.busy = false → s.len ≤ s.maxLen → ∃ t, issue HostAction.start s = .next t ∧
    t.cur = 0 ∧ t.phase = .lead ∧ t.recValid = false ∧ t.eos = false ∧ t.trunc = false ∧ t.invalid = false ∧
    t.cmdErr = false ∧ t.record = State.reset.record ∧ t.base = s.base ∧ t.len = s.len ∧ t.busy = false ∧
    ∀ a, t.buf.read a = s.buf.read a) ∧
  (∀ s : State, s.busy = false → s.maxLen < s.len → issue HostAction.start s = .refused .startBeyondMaxLen)

/-- R111: a STEP while PHASE is IDLE or EXH sets CMD_ERR and changes nothing else; otherwise it is a decode step. -/
def Obligations.StepRefusedOutsideStream : Prop :=
  (∀ s : State, s.busy = false → (s.phase = .idle ∨ s.phase = .exh) →
    issue HostAction.stepCmd s = .next { s with host := [], cmdErr := true }) ∧
  (∀ s : State, s.busy = false → (s.phase = .lead ∨ s.phase = .run) →
    issue HostAction.stepCmd s = decodeStep { s with host := [] })

/-- R31: CTRL reads 0; a write with the START bit is START whatever its other bits; with the STEP bit alone it is STEP;
with neither it does nothing; a STEP in IDLE or EXH changes CMD_ERR alone; while BUSY = 1 a write is ignored and sets
CMD_ERR. -/
def Obligations.CtrlWriteBits : Prop :=
  (∀ s : State, s.busy = false → ReadsAs s 0x00 0) ∧
  (∀ (s : State) (v : Word), s.busy = false → v.getLsbD 0 = true →
    issue (.regWrite 0x00 8 v) s = issue HostAction.start s) ∧
  (∀ (s : State) (v : Word), s.busy = false → v.getLsbD 0 = false → v.getLsbD 1 = true →
    issue (.regWrite 0x00 8 v) s = issue HostAction.stepCmd s) ∧
  (∀ (s : State) (v : Word), s.busy = false → v.getLsbD 0 = false → v.getLsbD 1 = false →
    issue (.regWrite 0x00 8 v) s = .next { s with host := [] }) ∧
  (∀ (s : State) (v : Word), s.busy = false → v.getLsbD 0 = false → v.getLsbD 1 = true →
    (s.phase = .idle ∨ s.phase = .exh) →
    issue (.regWrite 0x00 8 v) s = .next { s with host := [], cmdErr := true }) ∧
  (∀ (s : State) (v : Word), s.busy = true →
    issue (.regWrite 0x00 8 v) s = .next { s with host := [], cmdErr := true })

/-- R33: BASE and LEN take a write while PHASE is IDLE or EXH; while it is LEAD or RUN the write is ignored and sets
CMD_ERR; a read returns the value; every value can be written to BASE, and a START with LEN above MAX_LEN is refused. -/
def Obligations.BaseAndLenWrites : Prop :=
  (∀ (s : State) (v : Word), s.busy = false → (s.phase = .idle ∨ s.phase = .exh) →
    issue (.regWrite 0x10 8 v) s = .next { s with host := [], base := v } ∧
    issue (.regWrite 0x18 8 v) s = .next { s with host := [], len := v }) ∧
  (∀ (s : State) (v : Word), (s.phase = .lead ∨ s.phase = .run) →
    issue (.regWrite 0x10 8 v) s = .next { s with host := [], cmdErr := true } ∧
    issue (.regWrite 0x18 8 v) s = .next { s with host := [], cmdErr := true }) ∧
  (∀ s : State, s.busy = false → ReadsAs s 0x10 s.base ∧ ReadsAs s 0x18 s.len) ∧
  (∀ s : State, s.busy = false → s.maxLen < s.len → issue HostAction.start s = .refused .startBeyondMaxLen)

/-- R30: a read gives the register and changes nothing; a write to a read-only or reserved register is ignored; an access
that is not a whole aligned 64-bit register is refused. -/
def Obligations.RegisterMapAccess : Prop :=
  (∀ s : State, s.busy = false → ReadsAs s 0x20 s.cur ∧ ReadsAs s 0x28 s.record.addr ∧ ReadsAs s 0x38 s.record.d) ∧
  (∀ (s : State) (offset : Nat), s.busy = false → 0x50 ≤ offset → offset < 0x80 → offset % 8 = 0 → ReadsAs s offset 0) ∧
  (∀ (s : State) (offset : Nat) (v : Word), (offset = 0x08 ∨ (0x20 ≤ offset ∧ offset < 0x80)) → offset % 8 = 0 →
    issue (.regWrite offset 8 v) s = .next { s with host := [] }) ∧
  (∀ (s : State) (offset width : Nat) (v : Word), (width ≠ 8 ∨ offset % 8 ≠ 0) →
    issue (.regWrite offset width v) s = .refused (.portAccess offset width) ∧
    issue (.regRead offset width) s = .refused (.portAccess offset width))

/-- STATUS as the host reads it (R32): each bit in its place, PHASE at bits 9:8 with IDLE 0, LEAD 1, RUN 2, EXH 3 (R24), the
reserved bits 0. -/
def Obligations.StatusReadLayout : Prop :=
  ∀ s : State, s.busy = false → ∃ w : Word, ReadsAs s 0x08 w ∧
    w.getLsbD 0 = false ∧ w.getLsbD 1 = s.recValid ∧ w.getLsbD 2 = s.eos ∧ w.getLsbD 3 = s.trunc ∧
    w.getLsbD 4 = s.invalid ∧ (w.getLsbD 5 = true ↔ s.phase = .exh) ∧ w.getLsbD 6 = s.cmdErr ∧
    w.getLsbD 7 = false ∧ (w.extractLsb' 8 2 = match s.phase with | .idle => 0 | .lead => 1 | .run => 2 | .exh => 3) ∧
    w.extractLsb' 10 54 = 0

/-- R271: each condition the block detects has its cause code and is read at its STATUS bit; code 0, no condition, goes
with a valid, complete record, and no two conditions share a code or a bit. -/
def Obligations.ConditionsStandInStatus : Prop :=
  (∀ s : State, s.busy = false → ∃ w : Word, ReadsAs s 0x08 w ∧
    ∀ (c : Condition) (b : Nat), conditionBit c = some b → w.getLsbD b = conditionHolds c s) ∧
  (∀ s : State, s.statusDescribesRecord → s.recValid = true →
    (conditionHolds .none s = true ↔ s.record.valid = true ∧ s.record.trunc = false)) ∧
  (conditionCode .none = 0 ∧ conditionCode .invalid = 1 ∧ conditionCode .trunc = 2 ∧ conditionCode .eos = 3 ∧
    conditionCode .cmdErr = 4) ∧
  (∀ c c' : Condition, conditionCode c = conditionCode c' ∨ conditionBit c = conditionBit c' → c = c')

/-- R34: the layout of REC_INFO, its reserved bits 0, with FMT 0 for B, 1 for BR, 2 for BRD, 3 for BD, 4 for INV (R88). -/
def Obligations.RecInfoReadLayout : Prop :=
  ∀ s : State, s.busy = false → ∃ w : Word, ReadsAs s 0x30 w ∧
    w.extractLsb' 0 4 = s.record.ifun ∧ w.extractLsb' 4 4 = s.record.icode ∧ w.extractLsb' 8 4 = s.record.rb ∧
    w.extractLsb' 12 4 = s.record.ra ∧ w.extractLsb' 16 4 = s.record.spanLen ∧
    (w.extractLsb' 20 3 = match s.record.fmt with | .B => 0 | .BR => 1 | .BRD => 2 | .BD => 3 | .INV => 4) ∧
    w.getLsbD 23 = false ∧ w.getLsbD 24 = s.record.valid ∧
    w.getLsbD 25 = s.record.trunc ∧ w.extractLsb' 26 38 = 0

/-- R35: REC_SPAN0 holds span cells 0 to 7 and REC_SPAN1 cells 8 and 9, its other bits 0; where the cells past the span
are zero (an invariant, stated by itself), they read 0x00. -/
def Obligations.SpanRegistersLayout : Prop :=
  ∀ s : State, s.busy = false → ∃ w0 w1 : Word, ReadsAs s 0x40 w0 ∧ ReadsAs s 0x48 w1 ∧
    (∀ k : Fin 8, w0.extractLsb' (8 * k.val) 8 = s.record.span[k.val]) ∧
    w0 = le (s.record.span.toList.take 8) ∧
    w1.extractLsb' 0 8 = s.record.span[8] ∧ w1.extractLsb' 8 8 = s.record.span[9] ∧ w1.extractLsb' 16 48 = 0 ∧
    (s.record.cellsPastSpanZero →
      (∀ k : Fin 8, s.record.spanLen.toNat ≤ k.val → w0.extractLsb' (8 * k.val) 8 = 0) ∧
      (∀ k : Fin 2, s.record.spanLen.toNat ≤ 8 + k.val → w1.extractLsb' (8 * k.val) 8 = 0))

/-- While BUSY = 1 (R311): a write to CTRL, BASE or LEN is ignored and sets CMD_ERR; a read of any register completes and
uses up one draw of the free values. CUR, REC_ADDR, REC_D and REC_SPAN0 read the free word; STATUS reads BUSY 1 and the
free word's bits at its other fields, REC_INFO and REC_SPAN1 the free word's bits at their fields. That the reserved bits
read 0, and BASE, LEN, CTRL and the reserved offsets as ever, is the model's choice (log entry 6). No run of this model
reaches BUSY = 1 (log entry 4). -/
def Obligations.BusyLocksTheBlock : Prop :=
  (∀ (s : State) (offset : Nat) (v : Word), s.busy = true → (offset = 0x00 ∨ offset = 0x10 ∨ offset = 0x18) →
    issue (.regWrite offset 8 v) s = .next { s with host := [], cmdErr := true }) ∧
  (∀ (s : State) (offset : Nat) (r : PortReg), s.busy = true → offset % 8 = 0 → portRegAt offset = some r →
    ReadsFreely s offset (regValueBusy s (Config.freeWord s.draws) r)) ∧
  (∀ (s : State) (offset : Nat), s.busy = true → (offset = 0x20 ∨ offset = 0x28 ∨ offset = 0x38 ∨ offset = 0x40) →
    ReadsFreely s offset (Config.freeWord s.draws)) ∧
  (∀ s : State, s.busy = true → ∃ w : Word, ReadsFreely s 0x08 w ∧ ∀ k, k < 64 → w.getLsbD k =
    if k = 0 then true else if k ≤ 6 ∨ k = 8 ∨ k = 9 then (Config.freeWord s.draws).getLsbD k else false) ∧
  (∀ s : State, s.busy = true → ∃ w : Word, ReadsFreely s 0x30 w ∧ ∀ k, k < 64 → w.getLsbD k =
    if k ≤ 25 ∧ k ≠ 23 then (Config.freeWord s.draws).getLsbD k else false) ∧
  (∀ s : State, s.busy = true → ∃ w : Word, ReadsFreely s 0x48 w ∧ ∀ k, k < 64 → w.getLsbD k =
    if k ≤ 15 then (Config.freeWord s.draws).getLsbD k else false) ∧
  (∀ s : State, s.busy = true → ReadsFreely s 0x00 0 ∧ ReadsFreely s 0x10 s.base ∧ ReadsFreely s 0x18 s.len ∧
    ∀ offset, 0x50 ≤ offset → offset < 0x80 → offset % 8 = 0 → ReadsFreely s offset 0)

/-! ### Reset -/

/-- R300 and R38: when reset is asserted every item of block state takes its reset value; BUF does not change (R302). -/
def Obligations.ResetGivesResetValues : Prop :=
  ∀ s : State, ∃ t, issue .reset s = .next t ∧ t.phase = .idle ∧ t.cur = 0 ∧ t.base = 0 ∧ t.len = 0 ∧
    t.record.addr = 0 ∧ t.record.icode = 0 ∧ t.record.ifun = 0 ∧ t.record.ra = 0xF ∧ t.record.rb = 0xF ∧
    t.record.d = 0 ∧ (∀ k : Fin 10, t.record.span[k.val] = 0) ∧ t.record.spanLen = 0 ∧ t.record.fmt.code = 0 ∧
    t.record.valid = false ∧ t.record.trunc = false ∧ t.recValid = false ∧ t.eos = false ∧ t.trunc = false ∧
    t.invalid = false ∧ t.cmdErr = false ∧ t.busy = false ∧ statusWord t = 0 ∧
    ∀ a, t.buf.read a = s.buf.read a

/-- The state the machine starts in is the one the reset input leads to, and has the invariants, whatever MAX_LEN is. -/
def Obligations.ResetStateHasInvariants : Prop :=
  State.reset.inv ∧ issue .reset State.reset = .next State.reset ∧ statusWord State.reset = 0 ∧
  ∀ m : Word, (State.resetWith m).inv ∧ issue .reset (State.resetWith m) = .next (State.resetWith m) ∧
    statusWord (State.resetWith m) = 0

/-- R10, R33: MAX_LEN is an argument of the machine after reset. In a block of every MAX_LEN the host writes every LEN, and
the START after it begins a stream when LEN is at most MAX_LEN and is refused when it is above; the reset state is such a
block's, of an unknown MAX_LEN (log entry 3). -/
def Obligations.MaxLenIsAnArgumentOfReset : Prop :=
  State.reset = State.resetWith Config.maxLen ∧
  ∀ m v : Word, ∃ t, issue (.regWrite 0x18 8 v) (State.resetWith m) = .next t ∧ t.maxLen = m ∧ t.len = v ∧
    (v ≤ m → ∃ u, issue HostAction.start t = .next u ∧ u.phase = .lead ∧ u.maxLen = m ∧ u.len = v) ∧
    (m < v → issue HostAction.start t = .refused .startBeyondMaxLen)

/-! ### The input buffer -/

/-- Reading after writing one byte of the buffer: the byte at its index, every other index as before; and the write keeps
the canonical form. -/
def Obligations.BufferReadAfterWrite : Prop :=
  ∀ (m : Memory) (i : Nat) (b : Byte), m.wf = true → i < 2 ^ 64 →
    (m.write i b).wf = true ∧ (m.write i b).read i = b ∧ ∀ j, j ≠ i → (m.write i b).read j = m.read j

/-- The canonical form makes equal buffers equal data. -/
def Obligations.EqualBuffersAreEqualData : Prop :=
  ∀ m m' : Memory, m.wf = true → m'.wf = true → (∀ i, m.read i = m'.read i) → m = m'

/-- R71: once the host writes an index while the stream is running, an engine read of it returns the free value, whatever
was written; every other index reads as before. A write outside a stream is what the engine reads. The form of the free
value is the model's (log entry 5). -/
def Obligations.HostWriteDuringStreamIsFree : Prop :=
  ∀ (s : State) (i : Word) (b : Byte), s.buf.wf = true → ∃ t, issue (.bufWrite i b) s = .next t ∧
    (streaming s = true → ∀ k, engineByte t k i.toNat = Config.freeByte s.draws k i.toNat) ∧
    (streaming s = false → s.dirty = [] → ∀ k, engineByte t k i.toNat = b) ∧
    (∀ k j, j ≠ i.toNat → engineByte t k j = engineByte s k j) ∧
    t.record = s.record ∧ t.cur = s.cur ∧ t.phase = s.phase ∧ statusWord t = statusWord s

/-- R60, R76: the engine never writes BUF. Only a BUF write of the host changes a byte of it, and only the byte it names;
no step changes MAX_LEN. -/
def Obligations.OnlyTheHostWritesTheBuffer : Prop :=
  ∀ s t : State, s.buf.wf = true → step s = .next t →
    t.maxLen = s.maxLen ∧
    ∀ a, t.buf.read a ≠ s.buf.read a →
      ∃ (i : Word) (b : Byte) (hs : List HostAction), s.host = .bufWrite i b :: hs ∧ a = i.toNat ∧ t.buf.read a = b

/-! ### Invariants and whole-machine rules -/

/-- R39: the invariants (1), (2), (3) and (5) hold at reset and are kept by every step; (4) a STEP that exhausts the stream leaves
CUR = LEN, and that stays until LEN is written or the phase is left. -/
def Obligations.StepKeepsStreamInvariants : Prop :=
  State.reset.streamInv ∧ ∀ s t : State, s.streamInv → step s = .next t →
    t.streamInv ∧ (s.phase ≠ .exh → t.phase = .exh → t.cur = t.len) ∧
    (s.phase = .exh → s.cur = s.len → t.phase = .exh → t.len = s.len → t.cur = t.len)

/-- Every step keeps all the invariants: R39, STATUS describing the record, the record's fields fitting its format, the
phase's meaning, the stream's bound, BUSY 0 between steps, the canonical forms. -/
def Obligations.StepKeepsAllInvariants : Prop := ∀ s t : State, s.inv → step s = .next t → t.inv

/-- R300: reset is the only event besides START that clears CMD_ERR. -/
def Obligations.CmdErrIsSticky : Prop :=
  ∀ s t : State, s.cmdErr = true → step s = .next t → t.cmdErr = false →
    ∃ a hs, s.host = a :: hs ∧ (a = .reset ∨ IsStart a)

/-- R272, R277, R285: IDLE and EXH are left by START or reset alone, and without a host action nothing changes (one
action a step is the model's, log entry 1). -/
def Obligations.OnlyStartOrResetLeavesIdleAndExh : Prop :=
  (∀ s t : State, (s.phase = .idle ∨ s.phase = .exh) → step s = .next t → t.phase ≠ s.phase →
    ∃ a hs, s.host = a :: hs ∧ (a = .reset ∨ IsStart a)) ∧
  (∀ s : State, s.host = [] → step s = .next s)

/-- BASE and LEN are constant for the whole of a stream (R33), and change only by a host write or reset. -/
def Obligations.BaseAndLenConstantInStream : Prop :=
  ∀ s t : State, step s = .next t →
    (streaming s = true → (∀ hs, s.host ≠ .reset :: hs) → t.base = s.base ∧ t.len = s.len) ∧
    (t.base ≠ s.base → ∃ a hs, s.host = a :: hs ∧ (a = .reset ∨ a = .regWrite 0x10 8 t.base)) ∧
    (t.len ≠ s.len → ∃ a hs, s.host = a :: hs ∧ (a = .reset ∨ a = .regWrite 0x18 8 t.len))

/-- REC changes only by a STEP that delivers a record, by START and by reset (R29, R114, R312). -/
def Obligations.RecordChangesOnlyByDelivery : Prop :=
  ∀ s t : State, step s = .next t → t.record ≠ s.record →
    ∃ a hs, s.host = a :: hs ∧ (a = .reset ∨ IsStart a ∨
      ((∃ v : Word, a = .regWrite 0x00 8 v ∧ v.getLsbD 0 = false ∧ v.getLsbD 1 = true) ∧
        streaming s = true ∧ t.recValid = true))

/-- A host that keeps its duties (R30, R33, R301, R310, R313) never has an action refused, never sees CMD_ERR set by it,
and the stream's bytes stay undisturbed. -/
def Obligations.ProtocolKeepsBlockQuiet : Prop :=
  ∀ (s : State) (a : HostAction), s.inv → s.undisturbed → keepsProtocol s a = true →
    ∃ t, issue a s = .next t ∧ (t.cmdErr = true → s.cmdErr = true) ∧ (streaming t = true → t.undisturbed)

/-! ### The run of a stream -/

/-- R124: a stream begun by START ends: after at most LEN + 1 STEPs PHASE is EXH and CUR = LEN, by end-of-stream or by a
truncated record, and every record before the last is complete. -/
def Obligations.StreamRunEnds : Prop :=
  ∀ (s0 : State) (n : Nat), s0.busy = false → s0.len ≤ s0.maxLen → s0.len.toNat + 1 ≤ n →
    ∃ s, issue HostAction.start s0 = .next s ∧
      (runStream n s).2.phase = .exh ∧ (runStream n s).2.cur = s0.len ∧
      (∀ r ∈ (runStream n s).1.dropLast, r.trunc = false) ∧
      ((runStream n s).2.eos = true ↔ (runStream n s).2.recValid = false) ∧
      ((runStream n s).2.eos = true → ∀ r ∈ (runStream n s).1, r.trunc = false) ∧
      ((runStream n s).2.eos = false →
        ∃ r, (runStream n s).1.getLast? = some r ∧ r.trunc = true ∧ (runStream n s).2.record = r)

/-- R125: a run consumes every byte exactly once. The spans of its records, in order, are the bytes of the stream after
the leading zeros, and the skipped zeros plus the SPAN_LENs make LEN. -/
def Obligations.StreamSpansCoverTheBuffer : Prop :=
  ∀ (s0 : State) (n : Nat), s0.busy = false → s0.len ≤ s0.maxLen → s0.len.toNat + 1 ≤ n →
    ∃ s z, issue HostAction.start s0 = .next s ∧ IsLeadingZeroCount s0 z ∧
      z + spanTotal (runStream n s).1 = s0.len.toNat ∧
      (runStream n s).1.flatMap spanBytes = (List.range' z (s0.len.toNat - z)).map s0.buf.read

/-- R126: the first record's ADDR is BASE plus the number of leading zeros, and each later one is the one before it plus
its SPAN_LEN, modulo 2^64. -/
def Obligations.StreamAddressesFollow : Prop :=
  ∀ (s0 : State) (n : Nat), s0.busy = false → s0.len ≤ s0.maxLen →
    ∃ s z, issue HostAction.start s0 = .next s ∧ IsLeadingZeroCount s0 z ∧
      addressesFrom (s0.base + BitVec.ofNat 64 z) (runStream n s).1

/-! ### The software wrapper (not hardware) -/

/-- R241: of a contiguous run of halt records only the first gives a line; the history after the run is HALT, and the
records after it are formatted as after a halt. -/
def Obligations.HaltRunPrintsOneLine : Prop :=
  ∀ (p : WrapperParams) (h : History) (r : Record) (rs after : List Record),
    h ≠ .halt → r.trunc = false → (∀ q ∈ r :: rs, q.valid = true ∧ q.icode = 0 ∧ q.ifun = 0 ∧ q.spanLen ≠ 0) →
    formatStream p h (r :: rs ++ after) =
      .line (lineWith r (padRight "halt".toList 8)) :: List.replicate rs.length .nothing ++ formatStream p .halt after ∧
    historyAfter h (r :: rs) = .halt

/-- R302: reset changes no byte of BUF and leaves the wrapper's history; a START that begins a stream sets the history to
NONE, whatever it was. -/
def Obligations.ResetLeavesBufferAndHistory : Prop :=
  (∀ (p : WrapperParams) (s : State) (h : History), ∃ t, issue .reset s = .next t ∧
    (∀ a, t.buf.read a = s.buf.read a) ∧ wrapperStep p .reset s t h = (none, h)) ∧
  (∀ (p : WrapperParams) (s : State) (h : History), s.busy = false → s.len ≤ s.maxLen →
    ∃ t, issue HostAction.start s = .next t ∧ wrapperStep p HostAction.start s t h = (none, .none))

/-- R241, R245: over a stream the wrapper formats the records in order from the history NONE, whatever history the stream
before it left, one result a record. -/
def Obligations.WrapperFormatsStreamFromNone : Prop :=
  ∀ (p : WrapperParams) (h : History) (s0 : State) (n : Nat), s0.busy = false → s0.len ≤ s0.maxLen →
    ∃ s, issue HostAction.start s0 = .next s ∧
      (runWrapper p n (wrapperStep p HostAction.start s0 s h).2 s).1 = formatStream p .none (runStream n s).1 ∧
      (runWrapper p n (wrapperStep p HostAction.start s0 s h).2 s).2 = historyAfter .none (runStream n s).1 ∧
      formatRun p (runStream n s).1 = formatStream p .none (runStream n s).1

/-- R241: what the wrapper does with one record, in each history: it is suppressed exactly when it is a valid halt and the
history is HALT (or it has no byte, R244), and the history becomes HALT after a valid halt and OTHER after anything else,
an invalid record with ICODE 0 among it. -/
def Obligations.HistoryFollowsTheRecord : Prop :=
  ∀ (p : WrapperParams) (h : History) (r : Record),
    ((formatRecord p h r).2 = .halt ↔ r.valid = true ∧ r.icode = 0) ∧
    ((formatRecord p h r).2 = .other ↔ ¬ (r.valid = true ∧ r.icode = 0)) ∧
    ((formatRecord p h r).1 = .nothing ↔ r.spanLen = 0 ∨ (r.valid = true ∧ r.icode = 0 ∧ h = .halt))

/-- R232 to R234: a line is the address in 16 digits, ": ", the raw bytes of the span padded with spaces to a column of 22,
the body from the 41st character on, and the line feed; a byte is two uppercase digits, the bytes in span order. -/
def Obligations.LineColumnsAreFixed : Prop :=
  ∀ (r : Record) (body : Text), r.spanLen ≤ 10 →
    (hex16 r.addr).length = 16 ∧ (hexBytes (spanBytes r)).length = 2 * r.spanLen.toNat ∧
    (lineWith r body).drop 40 = body ++ ['\n'] ∧ (lineWith r body).take 16 = hex16 r.addr ∧
    ((lineWith r body).drop 16).take 2 = ": ".toList ∧
    ((lineWith r body).drop 18).take 22 = padRight (hexBytes (spanBytes r)) 22 ∧
    padRight (hexBytes (spanBytes r)) 22 =
      hexBytes (spanBytes r) ++ List.replicate (22 - 2 * r.spanLen.toNat) ' ' ∧
    (∀ (b : Byte) (bs : List Byte), hexBytes (b :: bs) =
      "0123456789ABCDEF".toList.getD (b.toNat / 16) ' ' :: "0123456789ABCDEF".toList.getD (b.toNat % 16) ' ' ::
        hexBytes bs) ∧
    (∀ k, k < 16 → (hex16 r.addr)[15 - k]? =
      "0123456789abcdef".toList[r.addr.toNat / 16 ^ k % 16]?)

/-- R237: a nonzero value prints without a leading zero, zero as "0x0". -/
def Obligations.HexValueHasNoLeadingZero : Prop :=
  hexValue 0 = "0x0".toList ∧
  ∀ v : Word, v ≠ 0 → ∃ c t, hexValue v = '0' :: 'x' :: c :: t ∧ c ≠ '0' ∧ t.length < 16

/-- The wrapper refuses a record only for want of a text (R240, R243), naming its address: every other record of the
block gives a line or, for a repeated halt, nothing. -/
def Obligations.WrapperRefusesOnlyForWantOfText : Prop :=
  ∀ (p : WrapperParams) (h : History) (r : Record) (a : Word),
    r.fitsFormat → (formatRecord p h r).1 = .refused a →
      a = r.addr ∧ ((r.icode = 6 ∧ 4 ≤ r.ifun.toNat ∧ r.ifun.toNat ≤ 6) ∨ (r.trunc = true ∧ p.truncBody = none))
end

