-- ==== Sys2Proof/Laws/Decode.lean ====
section
/-! SUPPORT. The byte order, the layouts, the class table and the decoder: what later proofs cite in place of their definitions. -/

namespace Sys2Proof

theorem byteOf_nibbles (b : Byte) : byteOf (hiNibble b) (loNibble b) = b := by
  revert b; decide

@[simp] theorem hiNibble_byteOf (hi lo : Nibble) : hiNibble (byteOf hi lo) = hi := by
  revert hi lo; decide

@[simp] theorem loNibble_byteOf (hi lo : Nibble) : loNibble (byteOf hi lo) = lo := by
  revert hi lo; decide

@[simp] theorem length_leBytes (n v : Nat) : (leBytes n v).length = n := by
  induction n generalizing v with
  | zero => rfl
  | succ n ih => simp [leBytes, ih]

theorem leNat_leBytes (n v : Nat) : leNat (leBytes n v) = v % 256 ^ n := by
  induction n generalizing v with
  | zero => simp [leBytes, leNat, Nat.mod_one]
  | succ n ih =>
    rw [leBytes, leNat, ih, BitVec.toNat_ofNat]
    have h := Nat.mod_mul (x := v) (a := 256) (b := 256 ^ n)
    rw [show 256 ^ (n + 1) = 256 * 256 ^ n from Nat.pow_succ', h]

theorem leNat_lt (bs : List Byte) : leNat bs < 256 ^ bs.length := by
  induction bs with
  | nil => simp [leNat]
  | cons b bs ih =>
    have hb : b.toNat < 256 := b.isLt
    simp only [leNat, List.length_cons, Nat.pow_succ]
    omega

theorem leBytes_leNat (bs : List Byte) : leBytes bs.length (leNat bs) = bs := by
  induction bs with
  | nil => rfl
  | cons b bs ih =>
    have hb : b.toNat < 256 := b.isLt
    simp only [List.length_cons, leBytes, leNat]
    congr 1
    · apply BitVec.eq_of_toNat_eq
      simp only [BitVec.toNat_ofNat]; omega
    · rw [show (b.toNat + 256 * leNat bs) / 256 = leNat bs by omega, ih]

theorem take_leBytes (n k v : Nat) : (leBytes n v).take k = leBytes (min k n) v := by
  induction n generalizing k v with
  | zero => simp [leBytes]
  | succ n ih =>
    cases k with
    | zero => simp [leBytes]
    | succ k => simp [leBytes, ih, Nat.succ_min_succ]

/-- A shorter sequence padded by zeros on the right has the same value, so its bytes come first. -/
theorem take_leBytes_leNat (bs : List Byte) (n : Nat) (h : bs.length ≤ n) :
    (leBytes n (leNat bs)).take bs.length = bs := by
  rw [take_leBytes, Nat.min_eq_left h, leBytes_leNat]

theorem le_leBytes_toNat (d : Word) : le (leBytes 8 d.toNat) = d := by
  have h : d.toNat < 256 ^ 8 := d.isLt
  rw [le, leNat_leBytes, Nat.mod_eq_of_lt h, BitVec.ofNat_toNat, BitVec.setWidth_eq]


theorem lengthOf_pos (b0 : Byte) : 1 ≤ lengthOf b0 := by revert b0; decide

theorem lengthOf_le_ten (b0 : Byte) : lengthOf b0 ≤ 10 := by revert b0; decide

theorem validByte_iff_mem (b0 : Byte) : validByte b0 = validFirstBytes.contains b0 := by revert b0; decide

/-- The format determines the length (R89). -/
theorem lengthOf_eq (b0 : Byte) : lengthOf b0 =
    match formatOf b0 with | .B => 1 | .BR => 2 | .BRD => 10 | .BD => 9 | .INV => 8 := by
  revert b0; decide

theorem eq_of_toNat {b : Byte} {n : Nat} (h : b.toNat = n) : b = BitVec.ofNat 8 n := by
  subst h; simp


theorem toNat_le (bs : List Byte) (h : bs.length ≤ 8) : (le bs).toNat = leNat bs := by
  have h1 := leNat_lt bs
  have h2 : 256 ^ bs.length ≤ 256 ^ 8 := Nat.pow_le_pow_right (by decide) h
  simp only [le, BitVec.toNat_ofNat]
  exact Nat.mod_eq_of_lt (by omega)

/-- The register byte of a span that may end before it. -/
theorem take_layoutBR (b0 : Byte) (rest : List Byte) (h : rest.length ≤ 1) :
    (layoutBR b0 (hiNibble (rest.getD 0 0xFF)) (loNibble (rest.getD 0 0xFF))).take (rest.length + 1) = b0 :: rest := by
  match rest, h with
  | [], _ => rfl
  | [b], _ => simp [layoutBR, byteOf_nibbles]

theorem take_layoutBD (b0 : Byte) (rest : List Byte) (h : rest.length ≤ 8) :
    (layoutBD b0 (le (rest.take 8))).take (rest.length + 1) = b0 :: rest := by
  rw [List.take_of_length_le h, layoutBD, toNat_le rest h, List.take_succ_cons, take_leBytes_leNat rest 8 h]

theorem take_layoutBRD (b0 : Byte) (rest : List Byte) (h : rest.length ≤ 9) :
    (layoutBRD b0 (hiNibble (rest.getD 0 0xFF)) (loNibble (rest.getD 0 0xFF)) (le ((rest.drop 1).take 8))).take
      (rest.length + 1) = b0 :: rest := by
  match rest, h with
  | [], _ => rfl
  | b :: l, h =>
    have hl : l.length ≤ 8 := by simp only [List.length_cons] at h; omega
    simp only [List.getD_cons_zero, List.drop_succ_cons, List.drop_zero, List.take_of_length_le hl, layoutBRD,
      byteOf_nibbles, toNat_le l hl, List.length_cons, List.take_succ_cons, take_leBytes_leNat l 8 hl]

theorem take_layoutINV (b0 : Byte) (rest : List Byte) (h : rest.length ≤ 7) :
    (layoutINV b0 (BitVec.ofNat 56 (leNat (rest.take 7)))).take (rest.length + 1) = b0 :: rest := by
  have h1 := leNat_lt rest
  have h2 : 256 ^ rest.length ≤ 256 ^ 7 := Nat.pow_le_pow_right (by decide) h
  have h3 : (BitVec.ofNat 56 (leNat rest)).toNat = leNat rest := by
    simp only [BitVec.toNat_ofNat]; exact Nat.mod_eq_of_lt (by omega)
  rw [List.take_of_length_le h, layoutINV, h3, List.take_succ_cons, take_leBytes_leNat rest 7 h]

/-- The decoder's arms, one equation for each first byte of a format: what `decodeFirst` answers encodes to the bytes it
was given, and to the whole length of the first byte. -/
theorem decodeFirst_encode (b0 : Byte) (rest : List Byte) (h : rest.length + 1 ≤ lengthOf b0) :
    (decodeFirst b0 rest).wellFormed = true ∧ (encode (decodeFirst b0 rest)).length = lengthOf b0 ∧
    (encode (decodeFirst b0 rest)).take (rest.length + 1) = b0 :: rest := by
  simp only [decodeFirst]
  split
  case h_31 =>
    have hw : validFirstBytes.contains b0 = false := by
      rw [Bool.eq_false_iff]
      intro hc
      have hm : b0.toNat ∈ validFirstBytes.map BitVec.toNat := by
        rw [List.contains_iff_mem] at hc
        exact List.mem_map_of_mem hc
      simp only [validFirstBytes, List.cons_append, List.nil_append, List.map_cons, List.map_nil,
        List.mem_cons, List.not_mem_nil, or_false] at hm
      simp_all
    have hl : lengthOf b0 = 8 := by
      unfold lengthOf; rw [validByte_iff_mem, hw]; rfl
    exact ⟨by simp only [Instr.wellFormed, hw, Bool.not_false], by simp [encode, layoutINV, hl],
      take_layoutINV b0 rest (by omega)⟩
  all_goals
    rename_i hb
    obtain rfl := eq_of_toNat hb
    refine ⟨rfl, rfl, ?_⟩
    first
    | exact take_layoutBR _ rest (Nat.le_of_succ_le_succ (h.trans (by decide : lengthOf _ ≤ 2)))
    | exact take_layoutBD _ rest (Nat.le_of_succ_le_succ (h.trans (by decide : lengthOf _ ≤ 9)))
    | exact take_layoutBRD _ rest (Nat.le_of_succ_le_succ (h.trans (by decide : lengthOf _ ≤ 10)))
    | (rw [List.length_eq_zero_iff.mp (Nat.le_zero.mp (Nat.le_of_succ_le_succ (h.trans (by decide : lengthOf _ ≤ 1))))]; rfl)

end Sys2Proof
end

