-- ==== Sys2Proof/Laws/State.lean ====
section
/-! SUPPORT. What each shared update of the state does to each field, one lemma a field. -/

namespace Sys2Proof.Machine

/-! ### setCur -/

@[simp] theorem setCur_phase (w : Word) (s : State) : (setCur w s).phase = s.phase := rfl
@[simp] theorem setCur_cur (w : Word) (s : State) : (setCur w s).cur = w := rfl
@[simp] theorem setCur_base (w : Word) (s : State) : (setCur w s).base = s.base := rfl
@[simp] theorem setCur_len (w : Word) (s : State) : (setCur w s).len = s.len := rfl
@[simp] theorem setCur_record (w : Word) (s : State) : (setCur w s).record = s.record := rfl
@[simp] theorem setCur_recValid (w : Word) (s : State) : (setCur w s).recValid = s.recValid := rfl
@[simp] theorem setCur_eos (w : Word) (s : State) : (setCur w s).eos = s.eos := rfl
@[simp] theorem setCur_trunc (w : Word) (s : State) : (setCur w s).trunc = s.trunc := rfl
@[simp] theorem setCur_invalid (w : Word) (s : State) : (setCur w s).invalid = s.invalid := rfl
@[simp] theorem setCur_cmdErr (w : Word) (s : State) : (setCur w s).cmdErr = s.cmdErr := rfl
@[simp] theorem setCur_busy (w : Word) (s : State) : (setCur w s).busy = s.busy := rfl
@[simp] theorem setCur_buf (w : Word) (s : State) : (setCur w s).buf = s.buf := rfl
@[simp] theorem setCur_maxLen (w : Word) (s : State) : (setCur w s).maxLen = s.maxLen := rfl
@[simp] theorem setCur_host (w : Word) (s : State) : (setCur w s).host = s.host := rfl
@[simp] theorem setCur_portData (w : Word) (s : State) : (setCur w s).portData = s.portData := rfl
@[simp] theorem setCur_dirty (w : Word) (s : State) : (setCur w s).dirty = s.dirty := rfl
@[simp] theorem setCur_draws (w : Word) (s : State) : (setCur w s).draws = s.draws := rfl

/-! ### beginStep -/

@[simp] theorem beginStep_phase (c : Nat) (s : State) : (beginStep c s).phase = s.phase := rfl
@[simp] theorem beginStep_cur (c : Nat) (s : State) : (beginStep c s).cur = BitVec.ofNat 64 c := rfl
@[simp] theorem beginStep_base (c : Nat) (s : State) : (beginStep c s).base = s.base := rfl
@[simp] theorem beginStep_len (c : Nat) (s : State) : (beginStep c s).len = s.len := rfl
@[simp] theorem beginStep_record (c : Nat) (s : State) : (beginStep c s).record = s.record := rfl
@[simp] theorem beginStep_recValid (c : Nat) (s : State) : (beginStep c s).recValid = s.recValid := rfl
@[simp] theorem beginStep_eos (c : Nat) (s : State) : (beginStep c s).eos = s.eos := rfl
@[simp] theorem beginStep_trunc (c : Nat) (s : State) : (beginStep c s).trunc = s.trunc := rfl
@[simp] theorem beginStep_invalid (c : Nat) (s : State) : (beginStep c s).invalid = s.invalid := rfl
@[simp] theorem beginStep_cmdErr (c : Nat) (s : State) : (beginStep c s).cmdErr = s.cmdErr := rfl
@[simp] theorem beginStep_busy (c : Nat) (s : State) : (beginStep c s).busy = s.busy := rfl
@[simp] theorem beginStep_buf (c : Nat) (s : State) : (beginStep c s).buf = s.buf := rfl
@[simp] theorem beginStep_maxLen (c : Nat) (s : State) : (beginStep c s).maxLen = s.maxLen := rfl
@[simp] theorem beginStep_host (c : Nat) (s : State) : (beginStep c s).host = s.host := rfl
@[simp] theorem beginStep_portData (c : Nat) (s : State) : (beginStep c s).portData = s.portData := rfl
@[simp] theorem beginStep_dirty (c : Nat) (s : State) : (beginStep c s).dirty = s.dirty := rfl
@[simp] theorem beginStep_draws (c : Nat) (s : State) : (beginStep c s).draws = s.draws + 1 := rfl

/-! ### endOfStream -/

@[simp] theorem endOfStream_phase (s : State) : (endOfStream s).phase = .exh := rfl
@[simp] theorem endOfStream_cur (s : State) : (endOfStream s).cur = s.cur := rfl
@[simp] theorem endOfStream_base (s : State) : (endOfStream s).base = s.base := rfl
@[simp] theorem endOfStream_len (s : State) : (endOfStream s).len = s.len := rfl
@[simp] theorem endOfStream_record (s : State) : (endOfStream s).record = s.record := rfl
@[simp] theorem endOfStream_recValid (s : State) : (endOfStream s).recValid = false := rfl
@[simp] theorem endOfStream_eos (s : State) : (endOfStream s).eos = true := rfl
@[simp] theorem endOfStream_trunc (s : State) : (endOfStream s).trunc = false := rfl
@[simp] theorem endOfStream_invalid (s : State) : (endOfStream s).invalid = false := rfl
@[simp] theorem endOfStream_cmdErr (s : State) : (endOfStream s).cmdErr = s.cmdErr := rfl
@[simp] theorem endOfStream_busy (s : State) : (endOfStream s).busy = s.busy := rfl
@[simp] theorem endOfStream_buf (s : State) : (endOfStream s).buf = s.buf := rfl
@[simp] theorem endOfStream_maxLen (s : State) : (endOfStream s).maxLen = s.maxLen := rfl
@[simp] theorem endOfStream_host (s : State) : (endOfStream s).host = s.host := rfl
@[simp] theorem endOfStream_portData (s : State) : (endOfStream s).portData = s.portData := rfl
@[simp] theorem endOfStream_dirty (s : State) : (endOfStream s).dirty = s.dirty := rfl
@[simp] theorem endOfStream_draws (s : State) : (endOfStream s).draws = s.draws := rfl

/-! ### commit -/

@[simp] theorem commit_phase (r : Record) (k : Nat) (s : State) : (commit r k s).phase = if r.trunc then .exh else .run := rfl
@[simp] theorem commit_cur (r : Record) (k : Nat) (s : State) : (commit r k s).cur = s.cur + BitVec.ofNat 64 k := rfl
@[simp] theorem commit_base (r : Record) (k : Nat) (s : State) : (commit r k s).base = s.base := rfl
@[simp] theorem commit_len (r : Record) (k : Nat) (s : State) : (commit r k s).len = s.len := rfl
@[simp] theorem commit_record (r : Record) (k : Nat) (s : State) : (commit r k s).record = r := rfl
@[simp] theorem commit_recValid (r : Record) (k : Nat) (s : State) : (commit r k s).recValid = true := rfl
@[simp] theorem commit_eos (r : Record) (k : Nat) (s : State) : (commit r k s).eos = false := rfl
@[simp] theorem commit_trunc (r : Record) (k : Nat) (s : State) : (commit r k s).trunc = r.trunc := rfl
@[simp] theorem commit_invalid (r : Record) (k : Nat) (s : State) : (commit r k s).invalid = !r.valid := rfl
@[simp] theorem commit_cmdErr (r : Record) (k : Nat) (s : State) : (commit r k s).cmdErr = s.cmdErr := rfl
@[simp] theorem commit_busy (r : Record) (k : Nat) (s : State) : (commit r k s).busy = s.busy := rfl
@[simp] theorem commit_buf (r : Record) (k : Nat) (s : State) : (commit r k s).buf = s.buf := rfl
@[simp] theorem commit_maxLen (r : Record) (k : Nat) (s : State) : (commit r k s).maxLen = s.maxLen := rfl
@[simp] theorem commit_host (r : Record) (k : Nat) (s : State) : (commit r k s).host = s.host := rfl
@[simp] theorem commit_portData (r : Record) (k : Nat) (s : State) : (commit r k s).portData = s.portData := rfl
@[simp] theorem commit_dirty (r : Record) (k : Nat) (s : State) : (commit r k s).dirty = s.dirty := rfl
@[simp] theorem commit_draws (r : Record) (k : Nat) (s : State) : (commit r k s).draws = s.draws := rfl

/-! ### startStream -/

@[simp] theorem startStream_phase (s : State) : (startStream s).phase = .lead := rfl
@[simp] theorem startStream_cur (s : State) : (startStream s).cur = 0 := rfl
@[simp] theorem startStream_base (s : State) : (startStream s).base = s.base := rfl
@[simp] theorem startStream_len (s : State) : (startStream s).len = s.len := rfl
@[simp] theorem startStream_record (s : State) : (startStream s).record = Record.cleared := rfl
@[simp] theorem startStream_recValid (s : State) : (startStream s).recValid = false := rfl
@[simp] theorem startStream_eos (s : State) : (startStream s).eos = false := rfl
@[simp] theorem startStream_trunc (s : State) : (startStream s).trunc = false := rfl
@[simp] theorem startStream_invalid (s : State) : (startStream s).invalid = false := rfl
@[simp] theorem startStream_cmdErr (s : State) : (startStream s).cmdErr = false := rfl
@[simp] theorem startStream_busy (s : State) : (startStream s).busy = s.busy := rfl
@[simp] theorem startStream_buf (s : State) : (startStream s).buf = s.buf := rfl
@[simp] theorem startStream_maxLen (s : State) : (startStream s).maxLen = s.maxLen := rfl
@[simp] theorem startStream_host (s : State) : (startStream s).host = s.host := rfl
@[simp] theorem startStream_portData (s : State) : (startStream s).portData = s.portData := rfl
@[simp] theorem startStream_dirty (s : State) : (startStream s).dirty = [] := rfl
@[simp] theorem startStream_draws (s : State) : (startStream s).draws = s.draws := rfl

/-! ### resetWith -/

@[simp] theorem State.resetWith_phase (m : Word) : (State.resetWith m).phase = .idle := rfl
@[simp] theorem State.resetWith_cur (m : Word) : (State.resetWith m).cur = 0 := rfl
@[simp] theorem State.resetWith_base (m : Word) : (State.resetWith m).base = 0 := rfl
@[simp] theorem State.resetWith_len (m : Word) : (State.resetWith m).len = 0 := rfl
@[simp] theorem State.resetWith_record (m : Word) : (State.resetWith m).record = Record.cleared := rfl
@[simp] theorem State.resetWith_recValid (m : Word) : (State.resetWith m).recValid = false := rfl
@[simp] theorem State.resetWith_eos (m : Word) : (State.resetWith m).eos = false := rfl
@[simp] theorem State.resetWith_trunc (m : Word) : (State.resetWith m).trunc = false := rfl
@[simp] theorem State.resetWith_invalid (m : Word) : (State.resetWith m).invalid = false := rfl
@[simp] theorem State.resetWith_cmdErr (m : Word) : (State.resetWith m).cmdErr = false := rfl
@[simp] theorem State.resetWith_busy (m : Word) : (State.resetWith m).busy = false := rfl
@[simp] theorem State.resetWith_buf (m : Word) : (State.resetWith m).buf = [] := rfl
@[simp] theorem State.resetWith_maxLen (m : Word) : (State.resetWith m).maxLen = m := rfl
@[simp] theorem State.resetWith_host (m : Word) : (State.resetWith m).host = [] := rfl
@[simp] theorem State.resetWith_portData (m : Word) : (State.resetWith m).portData = 0 := rfl
@[simp] theorem State.resetWith_dirty (m : Word) : (State.resetWith m).dirty = [] := rfl
@[simp] theorem State.resetWith_draws (m : Word) : (State.resetWith m).draws = 0 := rfl

/-- The reset state is one of them, of an unknown MAX_LEN (log entry 3). -/
theorem State.reset_eq : State.reset = State.resetWith Config.maxLen := rfl

/-! ### resetBlock -/

@[simp] theorem resetBlock_phase (s : State) : (resetBlock s).phase = .idle := rfl
@[simp] theorem resetBlock_cur (s : State) : (resetBlock s).cur = 0 := rfl
@[simp] theorem resetBlock_base (s : State) : (resetBlock s).base = 0 := rfl
@[simp] theorem resetBlock_len (s : State) : (resetBlock s).len = 0 := rfl
@[simp] theorem resetBlock_record (s : State) : (resetBlock s).record = Record.cleared := rfl
@[simp] theorem resetBlock_recValid (s : State) : (resetBlock s).recValid = false := rfl
@[simp] theorem resetBlock_eos (s : State) : (resetBlock s).eos = false := rfl
@[simp] theorem resetBlock_trunc (s : State) : (resetBlock s).trunc = false := rfl
@[simp] theorem resetBlock_invalid (s : State) : (resetBlock s).invalid = false := rfl
@[simp] theorem resetBlock_cmdErr (s : State) : (resetBlock s).cmdErr = false := rfl
@[simp] theorem resetBlock_busy (s : State) : (resetBlock s).busy = false := rfl
@[simp] theorem resetBlock_buf (s : State) : (resetBlock s).buf = s.buf := rfl
@[simp] theorem resetBlock_maxLen (s : State) : (resetBlock s).maxLen = s.maxLen := rfl
@[simp] theorem resetBlock_host (s : State) : (resetBlock s).host = s.host := rfl
@[simp] theorem resetBlock_portData (s : State) : (resetBlock s).portData = s.portData := rfl
@[simp] theorem resetBlock_dirty (s : State) : (resetBlock s).dirty = [] := rfl
@[simp] theorem resetBlock_draws (s : State) : (resetBlock s).draws = s.draws := rfl

/-! ### refuseCommand -/

@[simp] theorem refuseCommand_phase (s : State) : (refuseCommand s).phase = s.phase := rfl
@[simp] theorem refuseCommand_cur (s : State) : (refuseCommand s).cur = s.cur := rfl
@[simp] theorem refuseCommand_base (s : State) : (refuseCommand s).base = s.base := rfl
@[simp] theorem refuseCommand_len (s : State) : (refuseCommand s).len = s.len := rfl
@[simp] theorem refuseCommand_record (s : State) : (refuseCommand s).record = s.record := rfl
@[simp] theorem refuseCommand_recValid (s : State) : (refuseCommand s).recValid = s.recValid := rfl
@[simp] theorem refuseCommand_eos (s : State) : (refuseCommand s).eos = s.eos := rfl
@[simp] theorem refuseCommand_trunc (s : State) : (refuseCommand s).trunc = s.trunc := rfl
@[simp] theorem refuseCommand_invalid (s : State) : (refuseCommand s).invalid = s.invalid := rfl
@[simp] theorem refuseCommand_cmdErr (s : State) : (refuseCommand s).cmdErr = true := rfl
@[simp] theorem refuseCommand_busy (s : State) : (refuseCommand s).busy = s.busy := rfl
@[simp] theorem refuseCommand_buf (s : State) : (refuseCommand s).buf = s.buf := rfl
@[simp] theorem refuseCommand_maxLen (s : State) : (refuseCommand s).maxLen = s.maxLen := rfl
@[simp] theorem refuseCommand_host (s : State) : (refuseCommand s).host = s.host := rfl
@[simp] theorem refuseCommand_portData (s : State) : (refuseCommand s).portData = s.portData := rfl
@[simp] theorem refuseCommand_dirty (s : State) : (refuseCommand s).dirty = s.dirty := rfl
@[simp] theorem refuseCommand_draws (s : State) : (refuseCommand s).draws = s.draws := rfl

/-! ### bufWrite -/

@[simp] theorem bufWrite_phase (i : Word) (b : Byte) (s : State) : (bufWrite i b s).phase = s.phase := rfl
@[simp] theorem bufWrite_cur (i : Word) (b : Byte) (s : State) : (bufWrite i b s).cur = s.cur := rfl
@[simp] theorem bufWrite_base (i : Word) (b : Byte) (s : State) : (bufWrite i b s).base = s.base := rfl
@[simp] theorem bufWrite_len (i : Word) (b : Byte) (s : State) : (bufWrite i b s).len = s.len := rfl
@[simp] theorem bufWrite_record (i : Word) (b : Byte) (s : State) : (bufWrite i b s).record = s.record := rfl
@[simp] theorem bufWrite_recValid (i : Word) (b : Byte) (s : State) : (bufWrite i b s).recValid = s.recValid := rfl
@[simp] theorem bufWrite_eos (i : Word) (b : Byte) (s : State) : (bufWrite i b s).eos = s.eos := rfl
@[simp] theorem bufWrite_trunc (i : Word) (b : Byte) (s : State) : (bufWrite i b s).trunc = s.trunc := rfl
@[simp] theorem bufWrite_invalid (i : Word) (b : Byte) (s : State) : (bufWrite i b s).invalid = s.invalid := rfl
@[simp] theorem bufWrite_cmdErr (i : Word) (b : Byte) (s : State) : (bufWrite i b s).cmdErr = s.cmdErr := rfl
@[simp] theorem bufWrite_busy (i : Word) (b : Byte) (s : State) : (bufWrite i b s).busy = s.busy := rfl
@[simp] theorem bufWrite_buf (i : Word) (b : Byte) (s : State) : (bufWrite i b s).buf = s.buf.write i.toNat b := rfl
@[simp] theorem bufWrite_maxLen (i : Word) (b : Byte) (s : State) : (bufWrite i b s).maxLen = s.maxLen := rfl
@[simp] theorem bufWrite_host (i : Word) (b : Byte) (s : State) : (bufWrite i b s).host = s.host := rfl
@[simp] theorem bufWrite_portData (i : Word) (b : Byte) (s : State) : (bufWrite i b s).portData = s.portData := rfl
@[simp] theorem bufWrite_dirty (i : Word) (b : Byte) (s : State) : (bufWrite i b s).dirty = if streaming s then insertIndex i.toNat s.dirty else s.dirty := rfl
@[simp] theorem bufWrite_draws (i : Word) (b : Byte) (s : State) : (bufWrite i b s).draws = s.draws := rfl

@[simp] theorem setCur_setCur (w v : Word) (s : State) : setCur w (setCur v s) = setCur w s := rfl

end Sys2Proof.Machine
end

