-- ==== Sys2Proof/Laws/Engine.lean ====
section
/-! SUPPORT. What the engine reads: the bytes of an instruction, the skipped zeros, and what they depend on. -/

namespace Sys2Proof.Machine

theorem readBytes_eq_map (s : State) (i n : Nat) :
    readBytes s i n = (List.range' i n).map (engineByte s .decode) := by
  induction n generalizing i with
  | zero => rfl
  | succ n ih => simp [readBytes, ih, List.range'_succ]

@[simp] theorem length_readBytes (s : State) (i n : Nat) : (readBytes s i n).length = n := by
  simp [readBytes_eq_map]

theorem take_readBytes (s : State) (i n k : Nat) : (readBytes s i n).take k = readBytes s i (min k n) := by
  induction n generalizing i k with
  | zero => simp [readBytes]
  | succ n ih =>
    cases k with
    | zero => simp [readBytes]
    | succ k => simp [readBytes, ih, Nat.succ_min_succ]

theorem drop_readBytes (s : State) (i n k : Nat) : (readBytes s i n).drop k = readBytes s (i + k) (n - k) := by
  simp [readBytes_eq_map, ← List.map_drop, List.drop_range']

theorem readBytes_append (s : State) (i m n : Nat) :
    readBytes s i m ++ readBytes s (i + m) n = readBytes s i (m + n) := by
  simp [readBytes_eq_map, ← List.map_append, List.range'_append_1]

theorem fetchSpan_nil (s : State) (i : Nat) (h : s.len.toNat ≤ i) : fetchSpan s i = [] := by
  simp [fetchSpan, remaining, Nat.sub_eq_zero_of_le h]

/-- The fetched span: as many bytes as the first one asks for, or as the stream still holds. -/
theorem fetchSpan_eq (s : State) (i : Nat) (h : i < s.len.toNat) :
    fetchSpan s i = readBytes s i (min (lengthOf (engineByte s .decode i)) (remaining s i)) := by
  have hp := lengthOf_pos (engineByte s .decode i)
  unfold fetchSpan
  obtain ⟨n, hn⟩ : ∃ n, remaining s i = n + 1 := ⟨remaining s i - 1, by unfold remaining; omega⟩
  rw [hn]
  obtain ⟨m, hm⟩ : ∃ m, lengthOf (engineByte s .decode i) = m + 1 := ⟨_, (Nat.sub_add_cancel hp).symm⟩
  simp only [hm, Nat.add_sub_cancel, Nat.succ_min_succ]
  rfl

theorem fetchSpan_cons (s : State) (c : Nat) (h : c < s.len.toNat) :
    ∃ rest, fetchSpan s c = engineByte s .decode c :: rest ∧
      rest.length + 1 = min (lengthOf (engineByte s .decode c)) (remaining s c) := by
  have hf := fetchSpan_eq s c h
  have hp := lengthOf_pos (engineByte s .decode c)
  have hr : 0 < remaining s c := by unfold remaining; omega
  obtain ⟨n, hn⟩ : ∃ n, min (lengthOf (engineByte s .decode c)) (remaining s c) = n + 1 :=
    ⟨min (lengthOf (engineByte s .decode c)) (remaining s c) - 1, by omega⟩
  refine ⟨readBytes s (c + 1) n, ?_, ?_⟩
  · rw [hf, hn]; rfl
  · rw [length_readBytes, hn]

theorem toNat_ofNat_lt (c : Nat) (w : Word) (h : c < w.toNat) : (BitVec.ofNat 64 c).toNat = c := by
  have := w.isLt
  simp only [BitVec.toNat_ofNat]; omega

/-! ### The leading-zero skip (R113) -/

theorem skipZeros_spec (s : State) (n i : Nat) :
    i ≤ skipZeros s n i ∧ skipZeros s n i ≤ i + n ∧
    (∀ j, i ≤ j → j < skipZeros s n i → engineByte s .skip j = 0) ∧
    (skipZeros s n i < i + n → engineByte s .skip (skipZeros s n i) ≠ 0) := by
  induction n generalizing i with
  | zero => simp [skipZeros]; intro j h1 h2; omega
  | succ n ih =>
    simp only [skipZeros]
    split
    case isTrue h =>
      obtain ⟨h1, h2, h3, h4⟩ := ih (i + 1)
      refine ⟨by omega, by omega, fun j hj hj' => ?_, fun hlt => h4 (by omega)⟩
      by_cases he : j = i
      · subst he; exact h
      · exact h3 j (by omega) hj'
    case isFalse h =>
      refine ⟨le_refl i, by omega, fun j hj hj' => by omega, fun _ => h⟩

theorem skipZeros_unique (s : State) (n i z : Nat) (hz : z ≤ n) (h0 : ∀ j, j < z → engineByte s .skip (i + j) = 0)
    (h1 : z < n → engineByte s .skip (i + z) ≠ 0) : skipZeros s n i = i + z := by
  obtain ⟨g1, g2, g3, g4⟩ := skipZeros_spec s n i
  rcases Nat.lt_trichotomy (skipZeros s n i) (i + z) with h | h | h
  · exact absurd (by simpa [Nat.add_sub_cancel' g1] using h0 (skipZeros s n i - i) (by omega)) (g4 (by omega))
  · exact h
  · exact absurd (g3 (i + z) (by omega) h) (h1 (by omega))

theorem firstByteIndex_bounds (s : State) (h : s.cur ≤ s.len) :
    s.cur.toNat ≤ firstByteIndex s ∧ firstByteIndex s ≤ s.len.toNat := by
  have h' : s.cur.toNat ≤ s.len.toNat := h
  unfold firstByteIndex
  split
  · obtain ⟨h1, h2, -, -⟩ := skipZeros_spec s (remaining s s.cur.toNat) s.cur.toNat
    unfold remaining at *
    omega
  · omega


@[simp] theorem remaining_setCur (w : Word) (s : State) (i : Nat) : remaining (setCur w s) i = remaining s i := rfl
@[simp] theorem engineByte_setCur (w : Word) (s : State) : engineByte (setCur w s) = engineByte s := rfl

/-! ### What the engine reads depends on (R127) -/

theorem readBytes_congr (s t : State) (i n : Nat)
    (h : ∀ j, i ≤ j → j < i + n → engineByte s .decode j = engineByte t .decode j) : readBytes s i n = readBytes t i n := by
  rw [readBytes_eq_map, readBytes_eq_map]
  apply List.map_congr_left
  intro j hj
  obtain ⟨h1, h2⟩ := List.mem_range'_1.mp hj
  exact h j h1 h2

theorem skipZeros_congr (s t : State) (n i : Nat)
    (h : ∀ j, i ≤ j → j < i + n → engineByte s .skip j = engineByte t .skip j) : skipZeros s n i = skipZeros t n i := by
  induction n generalizing i with
  | zero => rfl
  | succ n ih =>
    simp only [skipZeros]
    rw [h i (le_refl i) (by omega), ih (i + 1) (fun j h1 h2 => h j (by omega) (by omega))]

theorem firstByteIndex_congr (s t : State) (hp : s.phase = t.phase) (hc : s.cur = t.cur) (hl : s.len = t.len)
    (h : ∀ j, s.cur.toNat ≤ j → j < s.len.toNat → engineByte s .skip j = engineByte t .skip j) :
    firstByteIndex s = firstByteIndex t := by
  unfold firstByteIndex
  rw [← hp, ← hc, skipZeros_congr s t _ _ fun j h1 h2 => h j h1 (by unfold remaining at h2; omega)]
  unfold remaining
  rw [hl]

theorem fetchSpan_congr (s t : State) (i : Nat) (hl : s.len = t.len)
    (h : ∀ j, i ≤ j → j < s.len.toNat → engineByte s .decode j = engineByte t .decode j) : fetchSpan s i = fetchSpan t i := by
  by_cases hi : i < s.len.toNat
  · rw [fetchSpan_eq s i hi, fetchSpan_eq t i (hl ▸ hi), h i (le_refl i) hi]
    have hr : remaining s i = remaining t i := by unfold remaining; rw [hl]
    rw [hr]
    apply readBytes_congr
    intro j h1 h2
    exact h j h1 (by unfold remaining at hr h2; omega)
  · rw [fetchSpan_nil s i (by omega), fetchSpan_nil t i (by rw [← hl]; omega)]

@[simp] theorem readBytes_setCur (w : Word) (s : State) (i n : Nat) : readBytes (setCur w s) i n = readBytes s i n :=
  readBytes_congr _ _ _ _ fun _ _ _ => rfl

@[simp] theorem skipZeros_setCur (w : Word) (s : State) (n i : Nat) : skipZeros (setCur w s) n i = skipZeros s n i :=
  skipZeros_congr _ _ _ _ fun _ _ _ => rfl

theorem firstByteIndex_host (s : State) (hs : List HostAction) :
    firstByteIndex { s with host := hs } = firstByteIndex s :=
  firstByteIndex_congr _ _ rfl rfl rfl fun _ _ _ => rfl

theorem le_firstByteIndex (s : State) : s.cur.toNat ≤ firstByteIndex s := by
  unfold firstByteIndex
  split
  · exact (skipZeros_spec s _ _).1
  · exact le_refl _

theorem firstByteIndex_run {s : State} (h : s.phase = .run) : firstByteIndex s = s.cur.toNat := by
  simp [firstByteIndex, h]

theorem fetchSpan_host (s : State) (hs : List HostAction) (c : Nat) :
    fetchSpan { s with host := hs } c = fetchSpan s c := fetchSpan_congr _ _ _ rfl fun _ _ _ => rfl

/-- With no index disturbed, the engine reads the buffer. -/
theorem engineByte_clean {s : State} (h : s.dirty = []) (k : Config.ReadKind) (i : Nat) : engineByte s k i = s.buf.read i := by
  simp [engineByte, h]

end Sys2Proof.Machine
end

