-- ==== Sys2Proof/Laws/Exec.lean ====
section
/-! SUPPORT. What a delivery, a meaning and a decode step do, said once. -/

namespace Sys2Proof.Machine

/-- Every meaning is one delivery of its whole encoding, with the format and validity its first byte determines. -/
theorem exec_eq_deliver (i : Instr) (s : State) (b0 : Byte) (tail : List Byte) (hw : i.wellFormed = true)
    (he : encode i = b0 :: tail) : exec i s = deliver (formatOf b0) (validByte b0) (b0 :: tail) s := by
  cases i
  case quad b slot =>
    obtain ⟨rfl, rfl⟩ := List.cons.inj he
    have hv : validByte b = false := by
      rw [validByte_iff_mem]; simpa [Instr.wellFormed] using hw
    have hf : formatOf b = .INV := by simp [formatOf, hv]
    rw [hv, hf]; rfl
  all_goals
    obtain ⟨rfl, rfl⟩ := List.cons.inj he
    rfl

/-- The shape of every meaning, for an ill-formed term too. -/
theorem exec_is_deliver (i : Instr) (s : State) : ∃ fmt valid bytes, bytes ≠ [] ∧ exec i s = deliver fmt valid bytes s := by
  cases i <;> exact ⟨_, _, _, by simp [layoutB, layoutBR, layoutBD, layoutBRD, layoutINV], rfl⟩

/-- A delivery with a byte left: the record, CUR past its span. -/
theorem deliver_eq (fmt : Fmt) (valid : Bool) (bytes : List Byte) (s : State) (c : Nat) (hc : s.cur.toNat = c)
    (h : c < s.len.toNat) :
    deliver fmt valid bytes s = .next (commit
      (recordOf (s.base + s.cur) fmt valid (decide (bytes.length ≤ remaining s c)) (bytes.take (remaining s c)))
      (min bytes.length (remaining s c)) s) := by
  have hr : remaining s c ≠ 0 := by unfold remaining; omega
  unfold deliver
  simp only [hc, if_neg hr, List.length_take, Nat.min_comm]

/-- A delivery at the end of the stream. -/
theorem deliver_eos (fmt : Fmt) (valid : Bool) (bytes : List Byte) (s : State) (h : s.len.toNat ≤ s.cur.toNat) :
    deliver fmt valid bytes s = .next (endOfStream s) := by
  unfold deliver
  simp only [remaining, Nat.sub_eq_zero_of_le h, if_true]

/-- A decode step with a byte left. -/
theorem decodeStep_record (s : State) (c : Nat) (hc : firstByteIndex s = c) (h : c < s.len.toNat) :
    decodeStep s = .next (commit
      (recordOf (s.base + BitVec.ofNat 64 c) (formatOf (engineByte s .decode c)) (validByte (engineByte s .decode c))
        (decide (lengthOf (engineByte s .decode c) ≤ remaining s c)) (fetchSpan s c))
      (min (lengthOf (engineByte s .decode c)) (remaining s c))
      (beginStep c s)) := by
  obtain ⟨rest, hrest, hlen⟩ := fetchSpan_cons s c h
  generalize engineByte s .decode c = b0 at *
  obtain ⟨hw, hl, ht⟩ := decodeFirst_encode b0 rest (by omega)
  obtain ⟨tail, he⟩ : ∃ tail, encode (decodeFirst b0 rest) = b0 :: tail := by
    cases hE : encode (decodeFirst b0 rest) with
    | nil => rw [hE] at ht; simp at ht
    | cons a tail => rw [hE] at ht; simp at ht; exact ⟨tail, by rw [ht.1]⟩
  have htake : (b0 :: tail).take (remaining s c) = b0 :: rest := by
    rw [← he, ← ht, hlen]
    by_cases hle : lengthOf b0 ≤ remaining s c
    · rw [Nat.min_eq_left hle, List.take_of_length_le (by omega), List.take_of_length_le (by omega)]
    · rw [Nat.min_eq_right (by omega)]
  have hl' : (b0 :: tail).length = lengthOf b0 := by rw [← he, hl]
  unfold decodeStep
  simp only [hc, hrest]
  rw [exec_eq_deliver _ _ b0 tail hw he, deliver_eq _ _ _ _ c (by exact toNat_ofNat_lt c s.len h) (by exact h)]
  simp only [hl']
  have hrem : remaining (beginStep c s) c = remaining s c := rfl
  rw [hrem, htake]
  rfl

/-- A decode step without one. -/
theorem decodeStep_eos (s : State) (h : s.len.toNat ≤ firstByteIndex s) :
    decodeStep s = .next (endOfStream (beginStep (firstByteIndex s) s)) := by
  unfold decodeStep
  show (match fetchSpan s (firstByteIndex s) with | [] => _ | b0 :: rest => _) = _
  rw [fetchSpan_nil s _ h]

/-- What a decode step that delivers the instruction at index `c` leaves. -/
structure Delivered (s t : State) (c : Nat) : Prop where
  lo : s.cur.toNat ≤ c
  hi : c < s.len.toNat
  spanLen : t.record.spanLen.toNat = min (lengthOf (engineByte s .decode c)) (s.len.toNat - c)
  cur : t.cur.toNat = c + min (lengthOf (engineByte s .decode c)) (s.len.toNat - c)
  record : t.record = recordOf (s.base + BitVec.ofNat 64 c) (formatOf (engineByte s .decode c)) (validByte (engineByte s .decode c))
        (decide (lengthOf (engineByte s .decode c) ≤ s.len.toNat - c)) (fetchSpan s c)
  recValid : t.recValid = true
  eos : t.eos = false
  trunc : t.trunc = t.record.trunc
  invalid : t.invalid = !t.record.valid
  phase : t.phase = if t.record.trunc then .exh else .run

/-- What a decode step never touches. -/
structure SameRest (s t : State) : Prop where
  base : t.base = s.base
  len : t.len = s.len
  cmdErr : t.cmdErr = s.cmdErr
  busy : t.busy = s.busy
  buf : t.buf = s.buf
  maxLen : t.maxLen = s.maxLen
  host : t.host = s.host
  portData : t.portData = s.portData
  dirty : t.dirty = s.dirty
  draws : t.draws = s.draws + 1

/-- Everything a decode step can do. -/
theorem decodeStep_cases {s t : State} (h : decodeStep s = .next t) :
    SameRest s t ∧
    ((Delivered s t (firstByteIndex s)) ∨
     (s.len.toNat ≤ firstByteIndex s ∧ t.cur = BitVec.ofNat 64 (firstByteIndex s) ∧ t.record = s.record ∧
      t.phase = .exh ∧ t.recValid = false ∧ t.eos = true ∧ t.trunc = false ∧ t.invalid = false)) := by
  have hlo := le_firstByteIndex s
  by_cases hc : firstByteIndex s < s.len.toNat
  · rw [decodeStep_record s _ rfl hc] at h
    cases h
    refine ⟨by constructor <;> rfl, .inl ?_⟩
    have hl := s.len.isLt
    have hfl : (fetchSpan s (firstByteIndex s)).length = min (lengthOf (engineByte s .decode (firstByteIndex s))) (s.len.toNat - firstByteIndex s) := by
      rw [fetchSpan_eq s _ hc, length_readBytes]; rfl
    have h10 := lengthOf_le_ten (engineByte s .decode (firstByteIndex s))
    refine ⟨hlo, hc, ?_, ?_, rfl, rfl, rfl, rfl, rfl, rfl⟩
    · show (BitVec.ofNat 4 (fetchSpan s (firstByteIndex s)).length).toNat = _
      rw [hfl]
      simp only [BitVec.toNat_ofNat]; omega
    · show (BitVec.ofNat 64 (firstByteIndex s) + BitVec.ofNat 64 (min _ (remaining s _)) : Word).toNat = _
      simp only [BitVec.toNat_add, BitVec.toNat_ofNat, remaining]; omega
  · rw [decodeStep_eos s (by omega)] at h
    cases h
    exact ⟨by constructor <;> rfl, .inr ⟨by omega, rfl, rfl, rfl, rfl, rfl, rfl, rfl⟩⟩


/-! ### The delivered record -/

theorem firstByte_recordOf (a : Word) (f : Fmt) (v c : Bool) (b0 : Byte) (rest : List Byte) :
    (recordOf a f v c (b0 :: rest)).firstByte = b0 := byteOf_nibbles b0

theorem cellsPast_recordOf (a : Word) (f : Fmt) (v c : Bool) (span : List Byte) (h : span.length ≤ 10) :
    (recordOf a f v c span).cellsPastSpanZero := by
  intro k hk
  have h1 : (BitVec.ofNat 4 span.length).toNat = span.length := by
    simp only [BitVec.toNat_ofNat]; omega
  simp only [recordOf, h1] at hk
  have hk' : span.length ≤ k.val := hk
  simp [recordOf, spanCells, List.getD_eq_getElem?_getD, hk']

theorem fits_recordOf (a : Word) (c : Bool) (b0 : Byte) (rest : List Byte) :
    (recordOf a (formatOf b0) (validByte b0) c (b0 :: rest)).fitsFormat := by
  refine ⟨?_, ?_, ?_, ?_⟩
  · rw [firstByte_recordOf]; rfl
  · rw [firstByte_recordOf]; rfl
  · intro h
    have h' : fmtHasReg (formatOf b0) = false := h
    simp [recordOf, raOf, rbOf, h']
  · intro h
    have h' : formatOf b0 = .B ∨ formatOf b0 = .BR := h
    rcases h' with h' | h' <;> simp [recordOf, dOf, h']

theorem Delivered.span {s t : State} {c : Nat} (h : Delivered s t c) : ∃ rest, fetchSpan s c = engineByte s .decode c :: rest ∧ rest.length + 1 ≤ 10 := by
  obtain ⟨rest, h1, h2⟩ := fetchSpan_cons s c h.hi
  have := lengthOf_le_ten (engineByte s .decode c)
  exact ⟨rest, h1, by omega⟩
theorem Delivered.fits {s t : State} {c : Nat} (h : Delivered s t c) : t.record.fitsFormat ∧ t.record.cellsPastSpanZero ∧ t.record.firstByte = engineByte s .decode c := by
  obtain ⟨rest, h1, h2⟩ := h.span
  rw [h.record, h1]
  exact ⟨fits_recordOf _ _ _ _, cellsPast_recordOf _ _ _ _ _ h2, firstByte_recordOf _ _ _ _ _ _⟩
theorem Delivered.truncIff {s t : State} {c : Nat} (h : Delivered s t c) : t.record.trunc = !decide (lengthOf (engineByte s .decode c) ≤ s.len.toNat - c) := by
  rw [h.record]; rfl

/-- CUR never passes LEN (R122), and reaches it when the record is truncated (R118). -/
theorem Delivered.cur_le {s t : State} {c : Nat} (h : Delivered s t c) : t.cur.toNat ≤ s.len.toNat := by
  have h1 := h.cur; have h2 := h.hi; omega
theorem Delivered.cur_eq {s t : State} {c : Nat} (h : Delivered s t c) (ht : t.record.trunc = true) : t.cur = s.len := by
  apply BitVec.eq_of_toNat_eq
  rw [h.truncIff] at ht
  have ht' : ¬ lengthOf (engineByte s .decode c) ≤ s.len.toNat - c := by simpa using ht
  have h1 := h.cur; have h2 := h.hi; omega

end Sys2Proof.Machine
end

