-- ==== Sys2Proof/Laws/Formatter.lean ====
section
/-! SUPPORT. The formatter: the history it threads, and the lengths of its columns. -/

namespace Sys2Proof.Machine

/-- The history never depends on the one before it, nor on what was printed (R241). -/
theorem formatRecord_history (p : WrapperParams) (h : History) (r : Record) :
    (formatRecord p h r).2 = nextHistory r := rfl

/-- The records after `rs` are formatted from the history `rs` leaves. -/
theorem formatStream_append (p : WrapperParams) (h : History) (rs qs : List Record) :
    formatStream p h (rs ++ qs) = formatStream p h rs ++ formatStream p (historyAfter h rs) qs := by
  induction rs generalizing h with
  | nil => rfl
  | cons r rs ih => exact congrArg _ (ih _)

@[simp] theorem historyAfter_nil (h : History) : historyAfter h [] = h := rfl

@[simp] theorem historyAfter_cons (h : History) (r : Record) (rs : List Record) :
    historyAfter h (r :: rs) = historyAfter (nextHistory r) rs := rfl

theorem isHaltRecord_iff (r : Record) : isHaltRecord r = true ↔ r.valid = true ∧ r.icode = 0 := by
  simp [isHaltRecord]

/-- The three things the wrapper can do for an action of the host. -/
theorem wrapperStep_begins (p : WrapperParams) (a : HostAction) (s t : State) (h : History)
    (hb : beginsStream a s = true) : wrapperStep p a s t h = (none, startHistory) := if_pos hb

theorem wrapperStep_formats (p : WrapperParams) (a : HostAction) (s t : State) (h : History)
    (hb : beginsStream a s = false) (hs : performsStep a s = true) (hv : t.recValid = true) :
    wrapperStep p a s t h = (some (formatRecord p h t.record).1, nextHistory t.record) := by
  simp [wrapperStep, hb, hs, hv, formatRecord_history]

theorem wrapperStep_keeps (p : WrapperParams) (a : HostAction) (s t : State) (h : History)
    (hb : beginsStream a s = false) (hs : (performsStep a s && t.recValid) = false) :
    wrapperStep p a s t h = (none, h) := by
  simp [wrapperStep, hb, hs]

theorem length_hexDigits (u : Bool) (n v : Nat) : (hexDigits u n v).length = n := by
  induction n generalizing v with
  | zero => rfl
  | succ n ih => simp [hexDigits, ih]

theorem length_hexBytes (bs : List Byte) : (hexBytes bs).length = 2 * bs.length := by
  induction bs with
  | nil => rfl
  | cons b bs ih =>
    simp only [hexBytes, List.flatMap_cons, List.length_append, length_hexDigits, List.length_cons] at ih ⊢
    omega

theorem length_spanBytes (r : Record) (h : r.spanLen ≤ 10) : (spanBytes r).length = r.spanLen.toNat := by
  have : r.spanLen.toNat ≤ 10 := h
  simp [spanBytes, this]

end Sys2Proof.Machine
end

