-- ==== Sys2Proof/Laws/Memory.lean ====
section
/-! SUPPORT. The input buffer: every operation of it keeps the canonical form, and a read after a write; the list of dirty indices. -/

namespace Sys2Proof.Machine

theorem Memory.read_cell (i : Nat) (b : Byte) (m : Memory) (j : Nat) (hm : j = i → m.read j = Memory.unlisted) :
    (Memory.cell i b m).read j = if j = i then b else m.read j := by
  unfold Memory.cell
  by_cases hb : b = Memory.unlisted
  · rw [if_pos hb]
    by_cases hj : j = i
    · rw [if_pos hj, hm hj, hb]
    · rw [if_neg hj]
  · rw [if_neg hb, Memory.read]

theorem Memory.wfFrom_mono {lo lo' : Nat} {m : Memory} (h : Memory.wfFrom lo m = true) (hl : lo' ≤ lo) :
    Memory.wfFrom lo' m = true := by
  cases m with
  | nil => rfl
  | cons c m =>
    obtain ⟨a, b⟩ := c
    simp only [Memory.wfFrom, Bool.and_eq_true, decide_eq_true_eq] at h ⊢
    exact ⟨⟨⟨by omega, h.1.1.2⟩, h.1.2⟩, h.2⟩

theorem Memory.read_below {lo : Nat} {m : Memory} (h : Memory.wfFrom lo m = true) {j : Nat} (hj : j < lo) :
    m.read j = Memory.unlisted := by
  induction m generalizing lo with
  | nil => rfl
  | cons c m ih =>
    obtain ⟨a, b⟩ := c
    simp only [Memory.wfFrom, Bool.and_eq_true, decide_eq_true_eq] at h
    rw [Memory.read, if_neg (by omega), ih h.2 (by omega)]

theorem Memory.wfFrom_cell {lo i : Nat} {b : Byte} {m : Memory} (h : Memory.wfFrom (i + 1) m = true) (hi : i < 2 ^ 64) (hlo : lo ≤ i) :
    Memory.wfFrom lo (Memory.cell i b m) = true := by
  unfold Memory.cell
  split
  · exact Memory.wfFrom_mono h (by omega)
  · rename_i hb
    simp only [Memory.wfFrom, h, Bool.and_true, Bool.and_eq_true, decide_eq_true_eq, bne_iff_ne]
    exact ⟨⟨hlo, hi⟩, hb⟩

theorem Memory.wfFrom_write {lo i : Nat} {b : Byte} {m : Memory} (h : Memory.wfFrom lo m = true) (hi : i < 2 ^ 64) (hlo : lo ≤ i) :
    Memory.wfFrom lo (m.write i b) = true := by
  induction m generalizing lo with
  | nil => exact Memory.wfFrom_cell (m := []) rfl hi hlo
  | cons c m ih =>
    obtain ⟨a, x⟩ := c
    have h' := h
    simp only [Memory.wfFrom, Bool.and_eq_true, decide_eq_true_eq, bne_iff_ne] at h'
    simp only [Memory.write]
    split
    · rename_i hia
      refine Memory.wfFrom_cell ?_ hi hlo
      simp only [Memory.wfFrom, Bool.and_eq_true, decide_eq_true_eq, bne_iff_ne]
      exact ⟨⟨⟨by omega, h'.1.1.2⟩, h'.1.2⟩, h'.2⟩
    · split
      · rename_i hia; subst hia
        exact Memory.wfFrom_cell h'.2 hi hlo
      · simp only [Memory.wfFrom, Bool.and_eq_true, decide_eq_true_eq, bne_iff_ne]
        exact ⟨h'.1, ih h'.2 (by omega)⟩

theorem Memory.wf_write {m : Memory} (h : m.wf = true) {i : Nat} (hi : i < 2 ^ 64) (b : Byte) : (m.write i b).wf = true :=
  Memory.wfFrom_write h hi (Nat.zero_le _)

theorem Memory.read_write_from {lo : Nat} {m : Memory} (h : Memory.wfFrom lo m = true) (i : Nat) (b : Byte) (j : Nat) :
    (m.write i b).read j = if j = i then b else m.read j := by
  induction m generalizing lo with
  | nil => exact Memory.read_cell i b [] j fun _ => rfl
  | cons c m ih =>
    obtain ⟨a, x⟩ := c
    have h' := h
    simp only [Memory.wfFrom, Bool.and_eq_true, decide_eq_true_eq, bne_iff_ne] at h'
    simp only [Memory.write]
    split
    · rename_i hia
      refine Memory.read_cell i b _ j fun hj => ?_
      subst hj
      rw [Memory.read, if_neg (by omega)]
      exact Memory.read_below h'.2 (by omega)
    · split
      · rename_i hia; subst hia
        rw [Memory.read_cell i b m j fun hj => Memory.read_below h'.2 (by omega)]
        by_cases hj : j = i
        · simp [hj]
        · rw [if_neg hj, if_neg hj, Memory.read, if_neg hj]
      · simp only [Memory.read, ih h'.2]
        by_cases hj : j = a
        · subst hj
          rw [if_pos rfl, if_pos rfl, if_neg (by omega)]
        · rw [if_neg hj, if_neg hj]

theorem Memory.read_write {m : Memory} (h : m.wf = true) (i : Nat) (b : Byte) (j : Nat) :
    (m.write i b).read j = if j = i then b else m.read j := Memory.read_write_from h i b j

theorem Memory.wf_writeList {m : Memory} (h : m.wf = true) {i : Nat} (bs : List Byte) (hi : i + bs.length ≤ 2 ^ 64) :
    (m.writeList i bs).wf = true := by
  induction bs generalizing m i with
  | nil => exact h
  | cons b bs ih =>
    simp only [List.length_cons] at hi
    exact ih (Memory.wf_write h (by omega) b) (by omega)

theorem contains_insertIndex (i j : Nat) (l : List Nat) : (insertIndex i l).contains j = (j == i || l.contains j) := by
  induction l with
  | nil => simp only [insertIndex, List.contains_cons]
  | cons a l ih =>
    simp only [insertIndex]
    split
    · simp only [List.contains_cons]
    · split
      · rename_i h; subst h
        rw [Bool.eq_iff_iff]; simp
      · rw [List.contains_cons, ih, List.contains_cons, Bool.eq_iff_iff]
        simp only [Bool.or_eq_true]; tauto

theorem risingFrom_mono {lo lo' : Nat} {l : List Nat} (h : risingFrom lo l = true) (hl : lo' ≤ lo) : risingFrom lo' l = true := by
  cases l with
  | nil => rfl
  | cons a l =>
    simp only [risingFrom, Bool.and_eq_true, decide_eq_true_eq] at h ⊢
    exact ⟨by omega, h.2⟩

theorem risingFrom_insertIndex {lo i : Nat} {l : List Nat} (h : risingFrom lo l = true) (hlo : lo ≤ i) :
    risingFrom lo (insertIndex i l) = true := by
  induction l generalizing lo with
  | nil => simpa [insertIndex, risingFrom] using hlo
  | cons a l ih =>
    have h' := h
    simp only [risingFrom, Bool.and_eq_true, decide_eq_true_eq] at h'
    simp only [insertIndex]
    split
    · simp only [risingFrom, Bool.and_eq_true, decide_eq_true_eq]
      exact ⟨hlo, by omega, h'.2⟩
    · split
      · exact h
      · simp only [risingFrom, Bool.and_eq_true, decide_eq_true_eq]
        exact ⟨h'.1, ih h'.2 (by omega)⟩
/-- The buffer after reset is in its canonical form. -/
theorem wf_reset : State.reset.buf.wf = true := rfl

theorem wf_resetWith (m : Word) : (State.resetWith m).buf.wf = true := rfl

/-- Writing the placed instruction's bytes keeps the canonical form. -/
theorem wf_placeInstruction (bytes : List Byte) (s : State) (h : s.buf.wf = true) (hb : bytes.length ≤ 2 ^ 64) :
    (placeInstruction bytes s).buf.wf = true := by
  refine Memory.wf_writeList h bytes ?_
  split <;> omega

end Sys2Proof.Machine
end

