-- ==== Sys2Proof/Laws/PerInstr.lean ====
section
/-! SUPPORT. Statements about every instruction as syntax, one lemma a constructor. -/

namespace Sys2Proof.Laws.EncodeShape

/-- The encoding of a well-formed instruction begins with a byte whose length it has, and that byte is invalid exactly
when the instruction is a `quad` (R89, R96, R220). -/
def Statement (i : Instr) : Prop :=
  i.wellFormed = true → ∃ b0 tail, encode i = b0 :: tail ∧ tail.length + 1 = lengthOf b0 ∧
    (validByte b0 = false ↔ ∃ b slot, i = .quad b slot)

theorem halt : Statement .halt := fun _ =>
  ⟨_, _, rfl, rfl, fun h => absurd h (by decide), fun ⟨_, _, h⟩ => nomatch h⟩

theorem nop : Statement .nop := fun _ =>
  ⟨_, _, rfl, rfl, fun h => absurd h (by decide), fun ⟨_, _, h⟩ => nomatch h⟩

theorem rrmovq (ra rb : Nibble) : Statement (.rrmovq ra rb) := fun _ =>
  ⟨_, _, rfl, rfl, fun h => absurd h (by decide), fun ⟨_, _, h⟩ => nomatch h⟩

theorem cmovle (ra rb : Nibble) : Statement (.cmovle ra rb) := fun _ =>
  ⟨_, _, rfl, rfl, fun h => absurd h (by decide), fun ⟨_, _, h⟩ => nomatch h⟩

theorem cmovl (ra rb : Nibble) : Statement (.cmovl ra rb) := fun _ =>
  ⟨_, _, rfl, rfl, fun h => absurd h (by decide), fun ⟨_, _, h⟩ => nomatch h⟩

theorem cmove (ra rb : Nibble) : Statement (.cmove ra rb) := fun _ =>
  ⟨_, _, rfl, rfl, fun h => absurd h (by decide), fun ⟨_, _, h⟩ => nomatch h⟩

theorem cmovne (ra rb : Nibble) : Statement (.cmovne ra rb) := fun _ =>
  ⟨_, _, rfl, rfl, fun h => absurd h (by decide), fun ⟨_, _, h⟩ => nomatch h⟩

theorem cmovge (ra rb : Nibble) : Statement (.cmovge ra rb) := fun _ =>
  ⟨_, _, rfl, rfl, fun h => absurd h (by decide), fun ⟨_, _, h⟩ => nomatch h⟩

theorem cmovg (ra rb : Nibble) : Statement (.cmovg ra rb) := fun _ =>
  ⟨_, _, rfl, rfl, fun h => absurd h (by decide), fun ⟨_, _, h⟩ => nomatch h⟩

theorem irmovq (ra rb : Nibble) (d : Word) : Statement (.irmovq ra rb d) := fun _ =>
  ⟨_, _, rfl, rfl, fun h => absurd h (by decide), fun ⟨_, _, h⟩ => nomatch h⟩

theorem rmmovq (ra rb : Nibble) (d : Word) : Statement (.rmmovq ra rb d) := fun _ =>
  ⟨_, _, rfl, rfl, fun h => absurd h (by decide), fun ⟨_, _, h⟩ => nomatch h⟩

theorem mrmovq (ra rb : Nibble) (d : Word) : Statement (.mrmovq ra rb d) := fun _ =>
  ⟨_, _, rfl, rfl, fun h => absurd h (by decide), fun ⟨_, _, h⟩ => nomatch h⟩

theorem addq (ra rb : Nibble) : Statement (.addq ra rb) := fun _ =>
  ⟨_, _, rfl, rfl, fun h => absurd h (by decide), fun ⟨_, _, h⟩ => nomatch h⟩

theorem subq (ra rb : Nibble) : Statement (.subq ra rb) := fun _ =>
  ⟨_, _, rfl, rfl, fun h => absurd h (by decide), fun ⟨_, _, h⟩ => nomatch h⟩

theorem andq (ra rb : Nibble) : Statement (.andq ra rb) := fun _ =>
  ⟨_, _, rfl, rfl, fun h => absurd h (by decide), fun ⟨_, _, h⟩ => nomatch h⟩

theorem xorq (ra rb : Nibble) : Statement (.xorq ra rb) := fun _ =>
  ⟨_, _, rfl, rfl, fun h => absurd h (by decide), fun ⟨_, _, h⟩ => nomatch h⟩

theorem op4 (ra rb : Nibble) : Statement (.op4 ra rb) := fun _ =>
  ⟨_, _, rfl, rfl, fun h => absurd h (by decide), fun ⟨_, _, h⟩ => nomatch h⟩

theorem op5 (ra rb : Nibble) : Statement (.op5 ra rb) := fun _ =>
  ⟨_, _, rfl, rfl, fun h => absurd h (by decide), fun ⟨_, _, h⟩ => nomatch h⟩

theorem op6 (ra rb : Nibble) : Statement (.op6 ra rb) := fun _ =>
  ⟨_, _, rfl, rfl, fun h => absurd h (by decide), fun ⟨_, _, h⟩ => nomatch h⟩

theorem jmp (d : Word) : Statement (.jmp d) := fun _ =>
  ⟨_, _, rfl, rfl, fun h => absurd h (by decide), fun ⟨_, _, h⟩ => nomatch h⟩

theorem jle (d : Word) : Statement (.jle d) := fun _ =>
  ⟨_, _, rfl, rfl, fun h => absurd h (by decide), fun ⟨_, _, h⟩ => nomatch h⟩

theorem jl (d : Word) : Statement (.jl d) := fun _ =>
  ⟨_, _, rfl, rfl, fun h => absurd h (by decide), fun ⟨_, _, h⟩ => nomatch h⟩

theorem je (d : Word) : Statement (.je d) := fun _ =>
  ⟨_, _, rfl, rfl, fun h => absurd h (by decide), fun ⟨_, _, h⟩ => nomatch h⟩

theorem jne (d : Word) : Statement (.jne d) := fun _ =>
  ⟨_, _, rfl, rfl, fun h => absurd h (by decide), fun ⟨_, _, h⟩ => nomatch h⟩

theorem jge (d : Word) : Statement (.jge d) := fun _ =>
  ⟨_, _, rfl, rfl, fun h => absurd h (by decide), fun ⟨_, _, h⟩ => nomatch h⟩

theorem jg (d : Word) : Statement (.jg d) := fun _ =>
  ⟨_, _, rfl, rfl, fun h => absurd h (by decide), fun ⟨_, _, h⟩ => nomatch h⟩

theorem call (d : Word) : Statement (.call d) := fun _ =>
  ⟨_, _, rfl, rfl, fun h => absurd h (by decide), fun ⟨_, _, h⟩ => nomatch h⟩

theorem ret : Statement .ret := fun _ =>
  ⟨_, _, rfl, rfl, fun h => absurd h (by decide), fun ⟨_, _, h⟩ => nomatch h⟩

theorem pushq (ra rb : Nibble) : Statement (.pushq ra rb) := fun _ =>
  ⟨_, _, rfl, rfl, fun h => absurd h (by decide), fun ⟨_, _, h⟩ => nomatch h⟩

theorem popq (ra rb : Nibble) : Statement (.popq ra rb) := fun _ =>
  ⟨_, _, rfl, rfl, fun h => absurd h (by decide), fun ⟨_, _, h⟩ => nomatch h⟩

theorem quad (b0 : Byte) (slot : BitVec 56) : Statement (.quad b0 slot) := by
  intro hw
  have hv : validByte b0 = false := by
    rw [validByte_iff_mem]; simpa [Instr.wellFormed] using hw
  refine ⟨b0, leBytes 7 slot.toNat, rfl, ?_, fun _ => ⟨b0, slot, rfl⟩, fun _ => hv⟩
  rw [length_leBytes]; unfold lengthOf; rw [hv]; rfl

end Sys2Proof.Laws.EncodeShape
end

