-- ==== Sys2Proof/Laws/Step.lean ====
section
/-! SUPPORT. What a step can do (its inversion), and what each action of the host does when issued alone. -/

namespace Sys2Proof.Machine

/-- Everything a step that goes on can do. -/
inductive StepCase (s t : State) : Prop where
  | idle (hh : s.host = []) (ht : t = s)
  | reset (hs : List HostAction) (hh : s.host = .reset :: hs) (ht : t = resetBlock { s with host := hs })
  | bufWrite (i : Word) (b : Byte) (hs : List HostAction) (hh : s.host = .bufWrite i b :: hs)
      (ht : t = Machine.bufWrite i b { s with host := hs })
  | read (o w : Nat) (hs : List HostAction) (v : Word) (d : Nat) (hh : s.host = .regRead o w :: hs)
      (ht : t = { s with host := hs, portData := v, draws := d })
  | ignored (o : Nat) (v : Word) (hs : List HostAction) (hh : s.host = .regWrite o 8 v :: hs) (ht : t = { s with host := hs })
  | refused (o : Nat) (v : Word) (hs : List HostAction) (hh : s.host = .regWrite o 8 v :: hs)
      (ht : t = refuseCommand { s with host := hs })
  | setBase (v : Word) (hs : List HostAction) (hh : s.host = .regWrite 0x10 8 v :: hs) (hb : s.busy = false)
      (hn : streaming s = false) (ht : t = { s with host := hs, base := v })
  | setLen (v : Word) (hs : List HostAction) (hh : s.host = .regWrite 0x18 8 v :: hs) (hb : s.busy = false)
      (hn : streaming s = false) (ht : t = { s with host := hs, len := v })
  | start (v : Word) (hs : List HostAction) (hh : s.host = .regWrite 0x00 8 v :: hs) (hb : s.busy = false)
      (h0 : v.getLsbD 0 = true) (hl : s.len ≤ s.maxLen) (ht : t = startStream { s with host := hs })
  | decode (v : Word) (hs : List HostAction) (hh : s.host = .regWrite 0x00 8 v :: hs) (hb : s.busy = false)
      (h0 : v.getLsbD 0 = false) (h1 : v.getLsbD 1 = true) (hst : streaming s = true)
      (ht : decodeStep { s with host := hs } = .next t)

theorem locked_false {s : State} (h : ¬ configLocked s = true) : s.busy = false ∧ streaming s = false := by
  simpa [configLocked] using h

theorem portRegAt_ctrl {o : Nat} (h : portRegAt o = some .ctrl) : o = 0x00 := by
  unfold portRegAt at h
  split at h <;> first | rfl | (simp at h)
theorem portRegAt_base {o : Nat} (h : portRegAt o = some .base) : o = 0x10 := by
  unfold portRegAt at h
  split at h <;> first | rfl | (simp at h)
theorem portRegAt_len {o : Nat} (h : portRegAt o = some .len) : o = 0x18 := by
  unfold portRegAt at h
  split at h <;> first | rfl | (simp at h)

/-- The inversion of the step: what a next state can be. -/
theorem step_cases {s t : State} (h : step s = .next t) : StepCase s t := by
  unfold step at h
  split at h
  · rename_i hh
    exact .idle hh (by cases h; rfl)
  · rename_i a hs hh
    cases a with
    | reset => exact .reset hs hh (by cases h; rfl)
    | bufWrite i b => exact .bufWrite i b hs hh (by cases h; rfl)
    | regRead o w =>
      change portRead o w _ = _ at h
      unfold portRead at h
      split at h
      · split at h
        · rename_i r hr
          unfold readReg at h
          split at h <;> (cases h; exact .read o w hs _ _ hh rfl)
        · cases h
      · cases h
    | regWrite o w v =>
      change portWrite o w v _ = _ at h
      unfold portWrite at h
      split at h
      case isFalse => cases h
      case isTrue hw =>
      have hw8 : w = 8 := by
        simp only [wholeAccess, Bool.and_eq_true, beq_iff_eq] at hw; exact hw.1
      subst hw8
      split at h
      case h_2 => cases h
      case h_1 r hr =>
      unfold writeReg at h
      split at h
      · have ho := portRegAt_ctrl hr
        subst ho
        unfold writeCtrl at h
        split at h
        · cases h; exact .refused _ v hs hh rfl
        · rename_i hb
          have hb' : s.busy = false := by simpa using hb
          split at h
          · rename_i h0
            unfold startCommand at h
            split at h
            · cases h
            · rename_i hl
              cases h
              exact .start v hs hh hb' h0 (BitVec.not_lt.mp hl) rfl
          · rename_i h0
            split at h
            · rename_i h1
              unfold stepCommand at h
              split at h
              · rename_i hst
                exact .decode v hs hh hb' (by simpa using h0) h1 hst h
              · cases h; exact .refused _ v hs hh rfl
            · cases h; exact .ignored _ v hs hh rfl
      · have ho := portRegAt_base hr
        subst ho
        unfold writeBase at h
        split at h
        · cases h; exact .refused _ v hs hh rfl
        · rename_i hl
          obtain ⟨h1, h2⟩ := locked_false hl
          cases h; exact .setBase v hs hh h1 h2 rfl
      · have ho := portRegAt_len hr
        subst ho
        unfold writeLen at h
        split at h
        · cases h; exact .refused _ v hs hh rfl
        · rename_i hl
          obtain ⟨h1, h2⟩ := locked_false hl
          cases h; exact .setLen v hs hh h1 h2 rfl
      all_goals (cases h; exact .ignored _ v hs hh rfl)

/-! ### Actions issued alone -/

theorem not_streaming {s : State} (h : s.phase = .idle ∨ s.phase = .exh) : streaming s = false := by
  rcases h with h | h <;> simp [streaming, h]
theorem is_streaming {s : State} (h : s.phase = .lead ∨ s.phase = .run) : streaming s = true := by
  rcases h with h | h <;> simp [streaming, h]

theorem issue_write (s : State) (offset : Nat) (r : PortReg) (v : Word) (h8 : offset % 8 = 0) (hr : portRegAt offset = some r) :
    issue (.regWrite offset 8 v) s = writeReg r v { s with host := [] } := by
  show portWrite offset 8 v _ = _
  simp [portWrite, wholeAccess, h8, hr]
theorem issue_read (s : State) (offset : Nat) (r : PortReg) (h8 : offset % 8 = 0) (hr : portRegAt offset = some r) :
    issue (.regRead offset 8) s = readReg r { s with host := [] } := by
  show portRead offset 8 _ = _
  simp [portRead, wholeAccess, h8, hr]

theorem issue_read_quiet (s : State) (offset : Nat) (r : PortReg) (h8 : offset % 8 = 0) (hr : portRegAt offset = some r)
    (hb : s.busy = false) :
    issue (.regRead offset 8) s = .next { s with host := [], portData := regValue s r } := by
  rw [issue_read s offset r h8 hr, readReg, if_neg (by simp [hb])]
  cases r <;> rfl

theorem unlocked {s : State} (hb : s.busy = false) (hn : streaming s = false) : ¬ configLocked s = true := by
  simp [configLocked, hb, hn]
theorem writeBase_ok {s : State} (hb : s.busy = false) (hn : streaming s = false) (v : Word) : writeBase v s = .next { s with base := v } :=
  if_neg (unlocked hb hn)
theorem writeLen_ok {s : State} (hb : s.busy = false) (hn : streaming s = false) (v : Word) : writeLen v s = .next { s with len := v } :=
  if_neg (unlocked hb hn)
theorem writeCtrl_ok {s : State} (hb : s.busy = false) (v : Word) : writeCtrl v s =
   if v.getLsbD 0 then startCommand s
  else if v.getLsbD 1 then stepCommand s
  else .next s := if_neg (by simp [hb])

theorem step_stepCmd (s : State) (hs : List HostAction) (hh : s.host = HostAction.stepCmd :: hs) (hb : s.busy = false) :
    step s = stepCommand { s with host := hs } := by
  unfold step
  rw [hh]
  show writeCtrl 2 _ = _
  unfold writeCtrl
  simp [hb]

theorem step_of_streaming (s : State) (hs : List HostAction) (hh : s.host = HostAction.stepCmd :: hs) (hb : s.busy = false)
    (hp : streaming s = true) : step s = decodeStep { s with host := hs } := by
  rw [step_stepCmd s hs hh hb, stepCommand]; exact if_pos hp

theorem issue_start_eq (s : State) (hb : s.busy = false) : issue HostAction.start s = startCommand { s with host := [] } := by
  unfold HostAction.start
  rw [issue_write s 0 .ctrl 1 rfl rfl]
  simp [writeReg, writeCtrl, hb]
theorem issue_start (s : State) (hb : s.busy = false) (h : s.len ≤ s.maxLen) : issue HostAction.start s = .next (startStream { s with host := [] }) := by
  rw [issue_start_eq s hb, startCommand, if_neg]
  exact BitVec.not_lt.mpr h
theorem issue_start_refused (s : State) (hb : s.busy = false) (h : s.maxLen < s.len) : issue HostAction.start s = .refused .startBeyondMaxLen := by
  rw [issue_start_eq s hb, startCommand, if_pos]
  exact h

end Sys2Proof.Machine
end

