-- ==== Sys2Proof/Tests/Slice0.lean ====
section
/-! SUPPORT. Tests: the encodings written out from the spec's tables, the spec's own vectors (spec/95_test_vectors.md, one
step each), and for each statement with hypotheses a witness that meets them. -/

namespace Sys2Proof.Tests

open Sys2Proof Sys2Proof.Machine Sys2Proof.Claims

/-! ### Well-formedness -/

/-- A `quad` with a valid first byte is the one ill-formed term (R220): refused for the first and the last byte of each
class of the table. -/
theorem test_wellFormed_refuses_quad_of_valid_byte :
    (Instr.quad 0x10 0).wellFormed = false ∧ (Instr.quad 0x26 0).wellFormed = false ∧
    (Instr.quad 0x66 1).wellFormed = false ∧ (Instr.quad 0xB0 0).wellFormed = false := by decide

theorem test_wellFormed_accepts_quad_of_invalid_byte :
    (Instr.quad 0x27 0).wellFormed = true ∧ (Instr.quad 0x01 0).wellFormed = true ∧
    (Instr.quad 0xFF 0).wellFormed = true := by decide

/-! ### Decoding: words written out from the encodings of R88 and R93 -/

theorem test_decode_halt_nop_ret :
    decodeTableWord 8 0x00 = some .halt ∧ decodeTableWord 8 0x10 = some .nop ∧ decodeTableWord 8 0x90 = some .ret := by
  decide

theorem test_decode_moves :
    decodeTableWord 16 0x0220 = some (.rrmovq 0x0 0x2) ∧
    decodeTableWord 16 0x3421 = some (.cmovle 0x3 0x4) ∧
    decodeTableWord 16 0x5622 = some (.cmovl 0x5 0x6) ∧
    decodeTableWord 16 0x7823 = some (.cmove 0x7 0x8) ∧
    decodeTableWord 16 0x9A24 = some (.cmovne 0x9 0xA) ∧
    decodeTableWord 16 0xBC25 = some (.cmovge 0xB 0xC) ∧
    decodeTableWord 16 0xDE26 = some (.cmovg 0xD 0xE) := by decide

theorem test_decode_arith :
    decodeTableWord 16 0x0160 = some (.addq 0x0 0x1) ∧
    decodeTableWord 16 0x2361 = some (.subq 0x2 0x3) ∧
    decodeTableWord 16 0x4562 = some (.andq 0x4 0x5) ∧
    decodeTableWord 16 0x6763 = some (.xorq 0x6 0x7) ∧
    decodeTableWord 16 0x1264 = some (.op4 0x1 0x2) ∧
    decodeTableWord 16 0x8965 = some (.op5 0x8 0x9) ∧
    decodeTableWord 16 0xAB66 = some (.op6 0xA 0xB) := by decide

theorem test_decode_stack :
    decodeTableWord 16 0x0FA0 = some (.pushq 0x0 0xF) ∧
    decodeTableWord 16 0x3FB0 = some (.popq 0x3 0xF) := by decide

theorem test_decode_immediate_and_memory :
    decodeTableWord 80 0x0000000000000010F230 = some (.irmovq 0xF 0x2 0x10) ∧
    decodeTableWord 80 0x80000000000000010340 = some (.rmmovq 0x0 0x3 0x8000000000000001) ∧
    decodeTableWord 80 0x01020304050607081350 = some (.mrmovq 0x1 0x3 0x102030405060708) := by decide

theorem test_decode_jumps_call :
    decodeTableWord 72 0x000000000000010070 = some (.jmp 0x100) ∧
    decodeTableWord 72 0x000000000000010871 = some (.jle 0x108) ∧
    decodeTableWord 72 0x000000000000011072 = some (.jl 0x110) ∧
    decodeTableWord 72 0x000000000000011873 = some (.je 0x118) ∧
    decodeTableWord 72 0x000000000000012074 = some (.jne 0x120) ∧
    decodeTableWord 72 0x000000000000012875 = some (.jge 0x128) ∧
    decodeTableWord 72 0x000000000000013076 = some (.jg 0x130) ∧
    decodeTableWord 72 0x000000000000123480 = some (.call 0x1234) := by decide

theorem test_decode_quad :
    decodeTableWord 64 0x07060504030201F0 = some (.quad 0xF0 0x07060504030201) ∧
    decodeTableWord 8 0x27 = some (.quad 0x27 0) ∧ decodeTableWord 8 0x11 = some (.quad 0x11 0) := by decide

/-- A table word without its operand bits stands for operands of zeros. -/
theorem test_decode_operands_of_zeros :
    decodeTableWord 8 0x30 = some (.irmovq 0 0 0) ∧ decodeTableWord 8 0x70 = some (.jmp 0) := by decide

theorem test_decode_rejects_by_name :
    decode [] = .error .noByte ∧ decode [0x30, 0xF2] = .error (.truncated 10 2) ∧
    decode [0xF0, 1] = .error (.truncated 8 2) := by
  refine ⟨rfl, rfl, rfl⟩

/-! ### One STEP of each vector of spec/95_test_vectors.md: REC_INFO, STATUS, CUR, REC_ADDR, REC_D -/

/-- Reset of a block of the largest MAX_LEN, BUF loaded from index 0, LEN and BASE set. -/
def loaded (base : Word) (bytes : List Byte) : State :=
  { State.resetWith 0xFFFFFFFFFFFFFFFF with buf := Memory.writeList [] 0 bytes, len := BitVec.ofNat 64 bytes.length, base := base }

/-- The same after START. -/
def begun (base : Word) (bytes : List Byte) : State := startStream (loaded base bytes)

/-- The same in the RUN phase with CUR further on. -/
def running (base : Word) (bytes : List Byte) (cur : Word) : State :=
  { begun base bytes with phase := .run, cur := cur, recValid := true }

/-- The state of an outcome. -/
def after (o : Outcome) : State :=
  match o with
  | .next t => t
  | .fault _ | .refused _ => State.reset

/-- What the host can read after a step. -/
def seen (o : Outcome) : Option (Word × Word × Word × Word × Word) :=
  match o with
  | .next t => some (recInfoWord t.record, statusWord t, t.cur, t.record.addr, t.record.d)
  | .fault _ | .refused _ => none

/-- One STEP of the host. -/
def stepOf (s : State) : Outcome := issue HostAction.stepCmd s

/-- V41-2 -/
theorem test_nop_after_padding :
    seen (stepOf (begun 0x100 [0x00, 0x00, 0x10])) =
      some (0x101FF10, 0x202, 3, 0x102, 0x0) := by decide

/-- V41-4 -/
theorem test_lone_zero_is_padding :
    seen (stepOf (begun 0x0 [0x00])) =
      some (0x000FF00, 0x324, 1, 0x0, 0x0) := by decide

/-- V42-1 -/
theorem test_rrmovq :
    seen (stepOf (begun 0x1000 [0x20, 0x02])) =
      some (0x1120220, 0x202, 2, 0x1000, 0x0) := by decide

/-- V42-2 -/
theorem test_cmovle :
    seen (stepOf (begun 0x0 [0x21, 0x34])) =
      some (0x1123421, 0x202, 2, 0x0, 0x0) := by decide

/-- V42-3 -/
theorem test_cmovl :
    seen (stepOf (begun 0x0 [0x22, 0x56])) =
      some (0x1125622, 0x202, 2, 0x0, 0x0) := by decide

/-- V42-4 -/
theorem test_cmove :
    seen (stepOf (begun 0x0 [0x23, 0x78])) =
      some (0x1127823, 0x202, 2, 0x0, 0x0) := by decide

/-- V42-5 -/
theorem test_cmovne :
    seen (stepOf (begun 0x0 [0x24, 0x9A])) =
      some (0x1129A24, 0x202, 2, 0x0, 0x0) := by decide

/-- V42-6 -/
theorem test_cmovge :
    seen (stepOf (begun 0x0 [0x25, 0xBC])) =
      some (0x112BC25, 0x202, 2, 0x0, 0x0) := by decide

/-- V42-7 -/
theorem test_cmovg :
    seen (stepOf (begun 0x0 [0x26, 0xDE])) =
      some (0x112DE26, 0x202, 2, 0x0, 0x0) := by decide

/-- V42-9 -/
theorem test_rrmovq_no_register :
    seen (stepOf (begun 0x0 [0x20, 0xFF])) =
      some (0x112FF20, 0x202, 2, 0x0, 0x0) := by decide

/-- V42-11 -/
theorem test_irmovq :
    seen (stepOf (begun 0x1016 [0x30, 0xF2, 0x10, 0x00, 0x00, 0x00, 0x00, 0x00, 0x00, 0x00])) =
      some (0x12AF230, 0x202, 10, 0x1016, 0x10) := by decide

/-- V42-14 -/
theorem test_irmovq_truncated_after_regs :
    seen (stepOf (begun 0x0 [0x30, 0xF2])) =
      some (0x322F230, 0x32A, 2, 0x0, 0x0) := by decide

/-- V42-15 -/
theorem test_irmovq_truncated_inside_d :
    seen (stepOf (begun 0x0 [0x30, 0xF2, 0x10, 0x20, 0x30])) =
      some (0x325F230, 0x32A, 5, 0x0, 0x302010) := by decide

/-- V43-1 -/
theorem test_addq :
    seen (stepOf (begun 0x0 [0x60, 0x01])) =
      some (0x1120160, 0x202, 2, 0x0, 0x0) := by decide

/-- V43-2 -/
theorem test_subq :
    seen (stepOf (begun 0x0 [0x61, 0x23])) =
      some (0x1122361, 0x202, 2, 0x0, 0x0) := by decide

/-- V43-3 -/
theorem test_andq :
    seen (stepOf (begun 0x0 [0x62, 0x45])) =
      some (0x1124562, 0x202, 2, 0x0, 0x0) := by decide

/-- V43-4 -/
theorem test_xorq :
    seen (stepOf (begun 0x0 [0x63, 0x67])) =
      some (0x1126763, 0x202, 2, 0x0, 0x0) := by decide

/-- V43-5 -/
theorem test_op4 :
    seen (stepOf (begun 0x0 [0x64, 0x12, 0x90])) =
      some (0x1121264, 0x202, 2, 0x0, 0x0) := by decide

/-- V43-6 -/
theorem test_op5 :
    seen (stepOf (begun 0x0 [0x65, 0x89])) =
      some (0x1128965, 0x202, 2, 0x0, 0x0) := by decide

/-- V43-7 -/
theorem test_op6 :
    seen (stepOf (begun 0x0 [0x66, 0xAB])) =
      some (0x112AB66, 0x202, 2, 0x0, 0x0) := by decide

/-- V44-1 -/
theorem test_jmp :
    seen (stepOf (begun 0x0 [0x70, 0x00, 0x01, 0x00, 0x00, 0x00, 0x00, 0x00, 0x00])) =
      some (0x139FF70, 0x202, 9, 0x0, 0x100) := by decide

/-- V44-2 -/
theorem test_jle :
    seen (stepOf (begun 0x0 [0x71, 0x08, 0x01, 0x00, 0x00, 0x00, 0x00, 0x00, 0x00])) =
      some (0x139FF71, 0x202, 9, 0x0, 0x108) := by decide

/-- V44-3 -/
theorem test_jl :
    seen (stepOf (begun 0x0 [0x72, 0x10, 0x01, 0x00, 0x00, 0x00, 0x00, 0x00, 0x00])) =
      some (0x139FF72, 0x202, 9, 0x0, 0x110) := by decide

/-- V44-4 -/
theorem test_je :
    seen (stepOf (begun 0x0 [0x73, 0x18, 0x01, 0x00, 0x00, 0x00, 0x00, 0x00, 0x00])) =
      some (0x139FF73, 0x202, 9, 0x0, 0x118) := by decide

/-- V44-5 -/
theorem test_jne :
    seen (stepOf (begun 0x0 [0x74, 0x20, 0x01, 0x00, 0x00, 0x00, 0x00, 0x00, 0x00])) =
      some (0x139FF74, 0x202, 9, 0x0, 0x120) := by decide

/-- V44-6 -/
theorem test_jge :
    seen (stepOf (begun 0x0 [0x75, 0x28, 0x01, 0x00, 0x00, 0x00, 0x00, 0x00, 0x00])) =
      some (0x139FF75, 0x202, 9, 0x0, 0x128) := by decide

/-- V44-7 -/
theorem test_jg :
    seen (stepOf (begun 0x0 [0x76, 0x30, 0x01, 0x00, 0x00, 0x00, 0x00, 0x00, 0x00])) =
      some (0x139FF76, 0x202, 9, 0x0, 0x130) := by decide

/-- V44-8 -/
theorem test_call :
    seen (stepOf (begun 0x400 [0x80, 0x34, 0x12, 0x00, 0x00, 0x00, 0x00, 0x00, 0x00])) =
      some (0x139FF80, 0x202, 9, 0x400, 0x1234) := by decide

/-- V44-9 -/
theorem test_ret :
    seen (stepOf (begun 0x0 [0x90])) =
      some (0x101FF90, 0x202, 1, 0x0, 0x0) := by decide

/-- V44-10 -/
theorem test_je_truncated :
    seen (stepOf (begun 0x0 [0x73, 0x01])) =
      some (0x332FF73, 0x32A, 2, 0x0, 0x1) := by decide

/-- V44-11 -/
theorem test_call_truncated :
    seen (stepOf (begun 0x0 [0x80])) =
      some (0x331FF80, 0x32A, 1, 0x0, 0x0) := by decide

/-- V44-14 -/
theorem test_jmp_bit63 :
    seen (stepOf (begun 0x0 [0x70, 0x00, 0x00, 0x00, 0x00, 0x00, 0x00, 0x00, 0x80])) =
      some (0x139FF70, 0x202, 9, 0x0, 0x8000000000000000) := by decide

/-- V45-1 -/
theorem test_pushq :
    seen (stepOf (begun 0x0 [0xA0, 0x0F])) =
      some (0x1120FA0, 0x202, 2, 0x0, 0x0) := by decide

/-- V45-2 -/
theorem test_popq :
    seen (stepOf (begun 0x0 [0xB0, 0x3F])) =
      some (0x1123FB0, 0x202, 2, 0x0, 0x0) := by decide

/-- V45-3 -/
theorem test_pushq_rb_unchecked :
    seen (stepOf (begun 0x0 [0xA0, 0x4E])) =
      some (0x1124EA0, 0x202, 2, 0x0, 0x0) := by decide

/-- V45-4 -/
theorem test_pushq_truncated :
    seen (stepOf (begun 0x0 [0xA0])) =
      some (0x311FFA0, 0x32A, 1, 0x0, 0x0) := by decide

/-- V46-1 -/
theorem test_quad :
    seen (stepOf (begun 0x0 [0xF0, 0x01, 0x02, 0x03, 0x04, 0x05, 0x06, 0x07])) =
      some (0x048FFF0, 0x212, 8, 0x0, 0x7060504030201f0) := by decide

/-- V46-5 -/
theorem test_quad_truncated :
    seen (stepOf (begun 0x200 [0xC5, 0x01, 0x02])) =
      some (0x243FFC5, 0x33A, 3, 0x200, 0x201c5) := by decide

/-- V40-1 -/
theorem test_empty_stream :
    seen (stepOf (begun 0x0 [])) =
      some (0x000FF00, 0x324, 0, 0x0, 0x0) := by decide

/-- P1 step 3 -/
theorem test_rmmovq :
    seen (stepOf (running 0x14 [0x40, 0x03, 0, 0, 0, 0, 0, 0, 0, 0] 0)) =
      some (0x12A0340, 0x202, 10, 0x14, 0) := by decide

/-- P1 step 4 -/
theorem test_mrmovq :
    seen (stepOf (running 0x1e [0x50, 0x13, 0, 0, 0, 0, 0, 0, 0, 0] 0)) =
      some (0x12A1350, 0x202, 10, 0x1e, 0) := by decide

/-- V41-1 step 2 -/
theorem test_halt :
    seen (stepOf (running 0 [0x10, 0x00] 1)) = some (0x101FF00, 0x202, 2, 1, 0) := by decide

/-- V41-1 step 1 -/
theorem test_nop : seen (stepOf (begun 0 [0x10, 0x00])) = some (0x101FF10, 0x202, 1, 0, 0) := by decide

/-- V40-3 step 3: the address wraps. -/
theorem test_address_wraps :
    seen (stepOf (running 0xfffffffffffffffe [0x10, 0x10, 0x10] 2)) = some (0x101FF10, 0x202, 3, 0, 0) := by decide

/-- The span of a truncated record reads zero past its end (R123 (4)): V42-15. -/
theorem test_span_registers :
    (after (stepOf (begun 0 [0x30, 0xF2, 0x10, 0x20, 0x30]))).record.span =
      #v[0x30, 0xF2, 0x10, 0x20, 0x30, 0, 0, 0, 0, 0] := by decide

/-! ### The command interface, rows of the table of spec/95_test_vectors.md -/

/-- Row 2: STEP in IDLE. -/
theorem test_step_in_idle : seen (stepOf State.reset) = some (0xFF00, 0x040, 0, 0, 0) := by decide

/-- Rows 4 and 7: START clears CMD_ERR, and with the STEP bit it is START alone. -/
theorem test_start :
    seen (issue (.regWrite 0 8 3) { loaded 0x10 [0x90, 0x90] with cmdErr := true }) =
      some (0xFF00, 0x100, 0, 0, 0) := by decide

/-- Row 5: LEN in LEAD. -/
theorem test_len_write_in_lead :
    seen (issue (.regWrite 0x18 8 5) (begun 0x10 [0x90, 0x90])) = some (0xFF00, 0x140, 0, 0, 0) ∧
    (after (issue (.regWrite 0x18 8 5) (begun 0x10 [0x90, 0x90]))).len = 2 := by decide

/-- Row 6: CMD_ERR stays through a STEP. -/
theorem test_cmdErr_stays :
    seen (stepOf { begun 0x10 [0x90, 0x90] with cmdErr := true }) = some (0x101FF90, 0x242, 1, 0x10, 0) := by decide

/-- Rows 11 and 12: STEP in EXH is refused, LEN is accepted there. -/
theorem test_exhausted :
    statusWord (after (stepOf { running 0x10 [0x90, 0x90] 2 with phase := .exh, eos := true, recValid := false })) =
      0x364 ∧
    (after (issue (.regWrite 0x18 8 1)
      { running 0x10 [0x90, 0x90] 2 with phase := .exh, eos := true, recValid := false })).len = 1 := by decide

/-- Row 16: reset; BUF stays. -/
theorem test_reset :
    seen (issue .reset (running 0x10 [0x90, 0x90] 1)) = some (0xFF00, 0x000, 0, 0, 0) ∧
    (after (issue .reset (running 0x10 [0x90, 0x90] 1))).buf.read 1 = 0x90 := by decide

/-- A register read reaches the host (R30). -/
theorem test_read_len : (after (issue (.regRead 0x18 8) (begun 0x10 [0x90, 0x90]))).portData = 2 := by decide

/-- `withFetchWord`: the very next step runs the word's instruction, from reset. -/
theorem test_withFetchWord :
    seen (step (State.reset.withFetchWord 72 0x001234000000000080 |>.withFetchWord 16 0x0220)) =
      some (0x1120220, 0x202, 2, 0, 0) ∧
    seen (step (State.reset.withFetchWord 8 0x00)) = some (0x101FF00, 0x202, 1, 0, 0) := by decide

/-- V46-5: INVALID and TRUNC together, with the codes of R271. -/
theorem test_conditions :
    conditionHolds .invalid (after (stepOf (begun 0x200 [0xC5, 1, 2]))) = true ∧
    conditionHolds .trunc (after (stepOf (begun 0x200 [0xC5, 1, 2]))) = true ∧
    conditionHolds .eos (after (stepOf (begun 0x200 [0xC5, 1, 2]))) = false ∧
    conditionHolds .none (after (stepOf (begun 0 [0x10]))) = true ∧
    conditionCode .none = 0 ∧ conditionCode .invalid = 1 ∧ conditionCode .trunc = 2 ∧ conditionCode .eos = 3 ∧
    conditionCode .cmdErr = 4 := by decide

/-! ### The formatter -/

/-- The wrapper's parameters in the tests. -/
def params : WrapperParams := { regInvalidText := "<none>".toList, truncBody := none }

/-- L1-1, as 90_conflicts.md C3 has it. -/
theorem test_line_irmovq :
    (formatRecord params .none (after (stepOf (begun 0x1016 [0x30, 0xF2, 0x10, 0, 0, 0, 0, 0, 0, 0]))).record).1 =
      .line "0000000000001016: 30F21000000000000000  irmovq  $0x10, %rdx\n".toList := by decide

/-- P1 step 3. -/
theorem test_line_rmmovq :
    (formatRecord params .none (after (stepOf (running 0x14 [0x40, 0x03, 0, 0, 0, 0, 0, 0, 0, 0] 0))).record).1 =
      .line "0000000000000014: 40030000000000000000  rmmovq  %rax,0x0(%rbx)\n".toList := by decide

/-- V46-1. -/
theorem test_line_quad :
    (formatRecord params .halt (after (stepOf (begun 0 [0xF0, 1, 2, 3, 4, 5, 6, 7]))).record).1 =
      .line "0000000000000000: F001020304050607      .quad   0x7060504030201f0\n".toList := by decide

/-- R241, V40-4 step 2: a new stream starts from NONE, so a halt that comes first is printed; the second is not. -/
theorem test_run_starts_from_none :
    formatRun params [(after (stepOf (running 0 [0x10, 0x00] 1))).record, (after (stepOf (running 0 [0x10, 0x00] 1))).record] =
      [.line "0000000000000001: 00                    halt    \n".toList, .nothing] := by decide

/-- R302: START sets the history to NONE, reset leaves it, a halt record sets it to HALT. -/
theorem test_wrapper_history :
    wrapperStep params (.regWrite 0 8 3) (loaded 0 [0x10]) (begun 0 [0x10]) .halt = (none, .none) ∧
    wrapperStep params .reset (begun 0 [0x10]) State.reset .halt = (none, .halt) ∧
    wrapperStep params HostAction.stepCmd (running 0 [0x10, 0x00] 1) (after (stepOf (running 0 [0x10, 0x00] 1))) .halt =
      (some .nothing, .halt) := by decide

/-- V43-5 and V42-13: the two refusals. -/
theorem test_line_refused :
    (formatRecord params .none (after (stepOf (begun 0 [0x64, 0x12, 0x90]))).record).1 = .refused 0 ∧
    (formatRecord params .none (after (stepOf (begun 0 [0x30]))).record).1 = .refused 0 := by decide

/-! ### Witnesses: states and operands that meet the hypotheses of the statements, each clause at a boundary -/

theorem test_wit_DecodeOfEncodeGivesInstrBack :
    (Instr.quad 0x27 0).wellFormed = true ∧ (Instr.irmovq 0xF 0xF 0xFFFFFFFFFFFFFFFF).wellFormed = true := by decide

theorem test_wit_EncodeOfDecodeGivesBytesBack : decode [0x20, 0xFF, 0x00] = .ok (.rrmovq 0xF 0xF, [0x00]) := rfl

/-- Clauses 1 and 2 at 10 and 9 bytes of a BRD encoding, 3 and 4 at a first byte of each kind. -/
theorem test_wit_FirstByteAloneFixesLength :
    lengthOf 0x30 ≤ (List.replicate 9 (0 : Byte)).length + 1 ∧
    (List.replicate 8 (0 : Byte)).length + 1 < lengthOf 0x30 ∧
    validByte 0xB0 = true ∧ validByte 0xB1 = false := by decide

/-- The whole encoding just fits: B, BR, BRD, BD, INV. -/
theorem test_wit_complete :
    (begun 0 [0x90]).cur.toNat + 1 ≤ (begun 0 [0x90]).len.toNat ∧
    (begun 0 [0x20, 0x02]).cur.toNat + 2 ≤ (begun 0 [0x20, 0x02]).len.toNat ∧
    (begun 0 (encode (.irmovq 1 2 3))).cur.toNat + 10 ≤ (begun 0 (encode (.irmovq 1 2 3))).len.toNat ∧
    (begun 0 (encode (.jmp 3))).cur.toNat + 9 ≤ (begun 0 (encode (.jmp 3))).len.toNat ∧
    (begun 0 (encode (.quad 0xF0 3))).cur.toNat + 8 ≤ (begun 0 (encode (.quad 0xF0 3))).len.toNat := by decide

/-- The truncated cases at their shortest and longest. -/
theorem test_wit_truncated :
    (begun 0 [0x20]).cur.toNat + 1 = (begun 0 [0x20]).len.toNat ∧
    (begun 0 [0x30]).cur.toNat + 1 = (begun 0 [0x30]).len.toNat ∧
    (begun 0 (List.replicate 9 1)).cur.toNat + 9 = (begun 0 (List.replicate 9 1)).len.toNat ∧
    (begun 0 (List.replicate 8 1)).cur.toNat + 8 = (begun 0 (List.replicate 8 1)).len.toNat ∧
    (begun 0 (List.replicate 7 1)).cur.toNat + 7 = (begun 0 (List.replicate 7 1)).len.toNat := by decide

theorem test_wit_InvalidFrom : (1 : Nat) ≤ (1 : Nibble).toNat ∧ (7 : Nat) ≤ (7 : Nibble).toNat ∧ (7 : Nat) ≤ (0xF : Nibble).toNat := by
  decide

theorem test_wit_InstructionFrame_no_record : (after (exec .nop (running 0 [0x10] 1))).recValid = false := by decide

theorem test_wit_TargetNeverMovesTheCursor :
    Instr.call ∈ [Instr.jmp, Instr.jle, Instr.jl, Instr.je, Instr.jne, Instr.jge, Instr.jg, Instr.call] ∧
    (running 0 (encode (.jmp 3)) 0).cur.toNat + 9 ≤ (running 0 (encode (.jmp 3)) 0).len.toNat :=
  ⟨by simp, by decide⟩

/-- A state with a STEP pending and another action behind it. -/
def stepping (s : State) : State := { s with host := [HostAction.stepCmd, .reset] }

theorem test_wit_StepRunsDecodedInstruction_complete :
    (stepping (running 0 [0x20, 0x02] 0)).host = HostAction.stepCmd :: [.reset] ∧
    (stepping (running 0 [0x20, 0x02] 0)).busy = false ∧ (stepping (running 0 [0x20, 0x02] 0)).phase = .run ∧
    decode (streamFrom (stepping (running 0 [0x20, 0x02] 0)) 0) = .ok (.rrmovq 0 2, []) := ⟨rfl, rfl, rfl, rfl⟩

theorem test_wit_StepRunsDecodedInstruction_truncated :
    (stepping (running 0 [0x20] 0)).host = HostAction.stepCmd :: [.reset] ∧
    (stepping (running 0 [0x20] 0)).busy = false ∧ (stepping (running 0 [0x20] 0)).phase = .run ∧
    decode (streamFrom (stepping (running 0 [0x20] 0)) 0) = .error (.truncated 2 1) := ⟨rfl, rfl, rfl, rfl⟩

theorem test_wit_FirstStepSkipsLeadingZeros :
    (stepping (begun 0 [0, 0, 0x10])).host = HostAction.stepCmd :: [.reset] ∧
    (stepping (begun 0 [0, 0, 0x10])).busy = false ∧ (stepping (begun 0 [0, 0, 0x10])).phase = .lead ∧
    (∀ j, j < 2 → engineByte (stepping (begun 0 [0, 0, 0x10])) .skip (0 + j) = 0) ∧
    (stepping (begun 0 [0, 0, 0x10])).cur.toNat + 2 < (stepping (begun 0 [0, 0, 0x10])).len.toNat ∧
    engineByte (stepping (begun 0 [0, 0, 0x10])) .skip 2 ≠ 0 ∧
    decode (streamFrom (stepping (begun 0 [0, 0, 0x10])) 2) = .ok (.nop, []) :=
  ⟨rfl, rfl, rfl, by decide, by decide, by decide, rfl⟩

theorem test_wit_StepEndsStreamWithoutByte :
    ((stepping (running 0 [0x10] 1)).phase = .run ∧ (stepping (running 0 [0x10] 1)).cur =
      (stepping (running 0 [0x10] 1)).len ∧ (stepping (running 0 [0x10] 1)).busy = false) ∧
    ((stepping (begun 0 [0, 0])).phase = .lead ∧ (stepping (begun 0 [0, 0])).cur ≤ (stepping (begun 0 [0, 0])).len ∧
      ∀ i, i < 2 → engineByte (stepping (begun 0 [0, 0])) .skip i = 0) := by decide

theorem test_wit_running : streaming (running 0 [0x10] 1) = true ∧ (running 0 [0x10] 1).cur ≤ (running 0 [0x10] 1).len ∧
    (running 0 [0x10] 1).busy = false := by decide

/-- Two states that differ outside the inputs of a decode step. -/
theorem test_wit_DecodeStepIsDetermined :
    SameDecodeInputs (running 0 [0x10] 0) { running 0 [0x10] 0 with cmdErr := true } ∧
    running 0 [0x10] 0 ≠ { running 0 [0x10] 0 with cmdErr := true } ∧
    (after (decodeStep (running 0 [0x10] 0))).recValid = true :=
  ⟨⟨rfl, rfl, rfl, rfl, fun _ _ _ _ => rfl⟩, by decide, by decide⟩

/-- Both clauses of StepReportsConditions, and the premise of StepConsumesItsSpan. -/
theorem test_wit_StepReportsConditions :
    issue HostAction.stepCmd (begun 0 [0, 0x30]) = .next (after (stepOf (begun 0 [0, 0x30]))) ∧
    firstByteIndex (begun 0 [0, 0x30]) < (begun 0 [0, 0x30]).len.toNat ∧
    (after (stepOf (begun 0 [0, 0x30]))).recValid = true ∧
    issue HostAction.stepCmd (begun 0 [0, 0]) = .next (after (stepOf (begun 0 [0, 0]))) ∧
    firstByteIndex (begun 0 [0, 0]) = (begun 0 [0, 0]).len.toNat :=
  ⟨rfl, by decide, by decide, rfl, by decide⟩

theorem test_wit_StepConsumesItsSpan :
    (after (stepOf (begun 0 [0, 0x30]))).record.trunc = true ∧
    (after (stepOf (begun 0 [0, 0x10]))).record.trunc = false ∧
    (after (stepOf (begun 0 [0, 0x10]))).recValid = true := by decide

/-- START below, at and above the bound MAX_LEN. -/
theorem test_wit_StartBeginsStream :
    (loaded 0 [0x10]).busy = false ∧ (loaded 0 [0x10]).len ≤ (loaded 0 [0x10]).maxLen ∧
    ({ loaded 0 [0x10] with maxLen := 1 } : State).len ≤ ({ loaded 0 [0x10] with maxLen := 1 } : State).maxLen ∧
    ({ loaded 0 [0x10] with maxLen := 0 } : State).maxLen < ({ loaded 0 [0x10] with maxLen := 0 } : State).len := by
  decide

/-- Not busy, in each PHASE. -/
theorem test_wit_phases :
    (State.reset.busy = false ∧ State.reset.phase = .idle) ∧
    ((begun 0 []).busy = false ∧ (begun 0 []).phase = .lead) ∧
    ((running 0 [] 0).busy = false ∧ (running 0 [] 0).phase = .run) ∧
    ((after (stepOf (begun 0 []))).busy = false ∧ (after (stepOf (begun 0 []))).phase = .exh) := by decide

theorem test_wit_CtrlWriteBits :
    (3 : Word).getLsbD 0 = true ∧ ((2 : Word).getLsbD 0 = false ∧ (2 : Word).getLsbD 1 = true) ∧
    ((0xFFFFFFFFFFFFFFFC : Word).getLsbD 0 = false ∧ (0xFFFFFFFFFFFFFFFC : Word).getLsbD 1 = false) ∧
    ({ begun 0 [] with busy := true } : State).busy = true := by decide

theorem test_wit_RegisterMapAccess :
    (0x50 ≤ 0x50 ∧ 0x50 < 0x80 ∧ 0x50 % 8 = 0) ∧ (0x50 ≤ 0x78 ∧ 0x78 < 0x80 ∧ 0x78 % 8 = 0) ∧
    (0x08 = 0x08 ∧ 0x08 % 8 = 0) ∧ (0x20 ≤ 0x20 ∧ 0x20 < 0x80 ∧ 0x20 % 8 = 0) ∧ (4 ≠ 8 ∧ 0x0C % 8 ≠ 0) := by decide

theorem test_wit_ConditionsStandInStatus :
    (begun 0 []).busy = false ∧ conditionBit .cmdErr = some 6 ∧
    (after (stepOf (begun 0 [0x10]))).statusDescribesRecord ∧ (after (stepOf (begun 0 [0x10]))).recValid = true := by
  unfold State.statusDescribesRecord
  decide

/-- The span cells past a record of 8 bytes are zero, and so is REC_SPAN1. -/
theorem test_wit_SpanRegistersLayout :
    (after (stepOf (begun 0 [0xF0, 1, 2, 3, 4, 5, 6, 7]))).record.cellsPastSpanZero ∧
    (after (stepOf (begun 0 [0xF0, 1, 2, 3, 4, 5, 6, 7]))).record.spanLen.toNat ≤ 8 ∧
    (after (stepOf (begun 0 [0x30, 1, 2, 3, 4, 5, 6]))).record.cellsPastSpanZero ∧
    (after (stepOf (begun 0 [0x30, 1, 2, 3, 4, 5, 6]))).record.spanLen.toNat ≤ (7 : Fin 8).val := by
  unfold Record.cellsPastSpanZero
  decide

theorem test_wit_BusyLocksTheBlock :
    ({ begun 0 [0x10] with busy := true } : State).busy = true ∧
    (0x18 = 0x00 ∨ 0x18 = 0x10 ∨ (0x18 : Nat) = 0x18) ∧ (0x40 = 0x20 ∨ 0x40 = 0x28 ∨ 0x40 = 0x38 ∨ (0x40 : Nat) = 0x40) ∧
    portRegAt 0x00 = some .ctrl ∧ portRegAt 0x78 = some .reserved ∧ 0x78 % 8 = 0 ∧ 0x50 % 8 = 0 := by decide

theorem test_wit_buffers : Memory.wf [(3, 0x10), (2 ^ 64 - 1, 0x90)] = true ∧ 2 ^ 64 - 1 < 2 ^ 64 := by decide

theorem test_wit_HostWriteDuringStreamIsFree :
    (begun 0 [0x10]).buf.wf = true ∧ streaming (begun 0 [0x10]) = true ∧ (0 : Nat) ≠ (1 : Word).toNat ∧
    (loaded 0 [0x10]).buf.wf = true ∧ streaming (loaded 0 [0x10]) = false ∧ (loaded 0 [0x10]).dirty = [] := by decide

/-- A step that writes a byte of the buffer. -/
theorem test_wit_OnlyTheHostWritesTheBuffer :
    (begun 0 [0x10]).buf.wf = true ∧
    step { begun 0 [0x10] with host := [.bufWrite 0 0x20] } = .next (after (issue (.bufWrite 0 0x20) (begun 0 [0x10]))) ∧
    (after (issue (.bufWrite 0 0x20) (begun 0 [0x10]))).buf.read 0 ≠ (begun 0 [0x10]).buf.read 0 :=
  ⟨by decide, rfl, by decide⟩

theorem test_inv_running : (begun 0x40 [0x20]).inv := by
  refine ⟨⟨?_, ?_, ?_, ?_⟩, ⟨rfl, rfl⟩, ?_, ⟨rfl, rfl⟩, ?_, ?_, rfl, by decide, rfl⟩
  · exact fun _ => by decide
  · exact fun h => absurd h (by decide)
  · exact fun h => absurd h (by decide)
  · exact fun h => absurd h (by decide)
  · unfold Record.cellsPastSpanZero; decide
  · exact fun h => absurd h (by decide)
  · exact fun _ => by decide

/-- A running stream with the invariants, whose STEP exhausts it by truncation; and after it a refused STEP that leaves
PHASE, CUR and LEN. -/
theorem test_wit_StepKeepsInvariants :
    (begun 0x40 [0x20]).inv ∧ (begun 0x40 [0x20]).streamInv ∧
    step { begun 0x40 [0x20] with host := [HostAction.stepCmd] } = .next (after (stepOf (begun 0x40 [0x20]))) ∧
    (begun 0x40 [0x20]).phase ≠ .exh ∧ (after (stepOf (begun 0x40 [0x20]))).phase = .exh ∧
    (after (stepOf (begun 0x40 [0x20]))).cur = (after (stepOf (begun 0x40 [0x20]))).len ∧
    (after (stepOf (after (stepOf (begun 0x40 [0x20]))))).phase = .exh ∧
    (after (stepOf (after (stepOf (begun 0x40 [0x20]))))).len = (after (stepOf (begun 0x40 [0x20]))).len :=
  ⟨test_inv_running, test_inv_running.1, rfl, by decide, by decide, by decide, by decide, by decide⟩

/-- START clears CMD_ERR, leaves IDLE and changes REC in one step. -/
theorem test_wit_CmdErrIsSticky :
    ({ loaded 0 [0x10] with cmdErr := true, host := [HostAction.start] } : State).cmdErr = true ∧
    (after (step { loaded 0 [0x10] with cmdErr := true, host := [HostAction.start] })).cmdErr = false ∧
    (after (step { loaded 0 [0x10] with host := [HostAction.start] })).phase ≠ (loaded 0 [0x10]).phase := by decide

theorem test_wit_BaseAndLenConstantInStream :
    streaming (begun 0 [0x10]) = true ∧
    (after (issue (.regWrite 0x10 8 5) State.reset)).base ≠ State.reset.base ∧
    (after (issue (.regWrite 0x18 8 5) State.reset)).len ≠ State.reset.len := by decide

theorem test_wit_RecordChangesOnlyByDelivery :
    step { begun 0 [0x20, 0x12] with host := [HostAction.stepCmd] } = .next (after (stepOf (begun 0 [0x20, 0x12]))) ∧
    (after (stepOf (begun 0 [0x20, 0x12]))).record ≠ (begun 0 [0x20, 0x12]).record := ⟨rfl, by decide⟩

/-- A host that keeps its duties: each kind of action, the register writes at the ends of the map. -/
theorem test_wit_ProtocolKeepsBlockQuiet :
    (begun 0x40 [0x20]).inv ∧ (begun 0x40 [0x20]).undisturbed ∧ keepsProtocol (begun 0x40 [0x20]) .reset = true ∧
    keepsProtocol (begun 0x40 [0x20]) (.bufWrite 1 0x10) = true ∧
    keepsProtocol (begun 0x40 [0x20]) (.regRead 0x78 8) = true ∧
    keepsProtocol (begun 0x40 [0x20]) HostAction.stepCmd = true ∧
    keepsProtocol (begun 0x40 [0x20]) HostAction.start = true ∧
    keepsProtocol State.reset (.regWrite 0x18 8 5) = true ∧
    keepsProtocol (begun 0x40 [0x20]) (.bufWrite 0 0x10) = false :=
  ⟨test_inv_running, fun _ _ => rfl, by decide, by decide, by decide, by decide, by decide, by decide, by decide⟩

/-- The stream statements' premises, and a stream that ends each way. -/
theorem test_wit_streams :
    (loaded 0 [0, 0x10]).busy = false ∧ (loaded 0 [0, 0x10]).len ≤ (loaded 0 [0, 0x10]).maxLen ∧
    (loaded 0 [0, 0x10]).len.toNat + 1 ≤ 3 ∧
    (runStream 3 (begun 0 [0, 0x10])).2.eos = true ∧ (runStream 2 (begun 0 [0x20])).2.eos = false := by decide

theorem test_wit_HaltRunPrintsOneLine :
    History.none ≠ .halt ∧ (after (stepOf (running 0 [0x10, 0x00] 1))).record.trunc = false ∧
    (after (stepOf (running 0 [0x10, 0x00] 1))).record.valid = true ∧
    (after (stepOf (running 0 [0x10, 0x00] 1))).record.icode = 0 ∧
    (after (stepOf (running 0 [0x10, 0x00] 1))).record.ifun = 0 ∧
    (after (stepOf (running 0 [0x10, 0x00] 1))).record.spanLen ≠ 0 := by decide

/-- MAX_LEN 0 and the two sides of a MAX_LEN. -/
theorem test_wit_MaxLenIsAnArgumentOfReset :
    (0 : Word) ≤ 0 ∧ (0 : Word) < 1 ∧ (0xFFFFFFFFFFFFFFFE : Word) < 0xFFFFFFFFFFFFFFFF ∧
    seen (issue HostAction.start (after (issue (.regWrite 0x18 8 5) (State.resetWith 5)))) =
      some (0xFF00, 0x100, 0, 0, 0) ∧
    seen (issue HostAction.start (after (issue (.regWrite 0x18 8 6) (State.resetWith 5)))) = none := by decide

theorem test_wit_LineColumnsAreFixed : (after (stepOf (begun 0 (encode (.irmovq 1 2 3))))).record.spanLen ≤ 10 ∧
    (0x8000000000000000 : Word) ≠ 0 := by decide

/-- The premises of the two statements about the history, at a stream of the largest length a bound allows. -/
theorem test_wit_wrapper_streams :
    ({ loaded 0 [0x10] with maxLen := 1 } : State).busy = false ∧
    ({ loaded 0 [0x10] with maxLen := 1 } : State).len ≤ ({ loaded 0 [0x10] with maxLen := 1 } : State).maxLen ∧
    (runStream 2 (begun 0 [0x10])).1.length = 1 := by decide

/-- Both reasons of a refusal. -/
theorem test_wit_WrapperRefusesOnlyForWantOfText :
    (after (stepOf (begun 0 [0x64, 0x12]))).record.fitsFormat ∧
    (formatRecord params .none (after (stepOf (begun 0 [0x64, 0x12]))).record).1 = .refused 0 ∧
    (after (stepOf (begun 0 [0x30]))).record.fitsFormat ∧
    (formatRecord params .none (after (stepOf (begun 0 [0x30]))).record).1 = .refused 0 := by
  unfold Record.fitsFormat
  decide

end Sys2Proof.Tests
end

namespace Sys2Proof.Machine

/-- R33: outside a stream and with no command in progress the host's write of LEN is stored, whatever MAX_LEN is. -/
theorem issue_write_len (s : State) (v : Word) (hb : s.busy = false) (hn : streaming s = false) :
    issue (.regWrite 0x18 8 v) s = .next { s with host := [], len := v } := by
  rw [issue_write s 0x18 .len v rfl rfl]
  exact writeLen_ok (s := { s with host := [] }) hb hn v

/-- Settles O35: a reset block is in IDLE, so the write of LEN is stored beside the MAX_LEN the block was given, and
START compares exactly these two. -/
theorem maxLenIsAnArgumentOfReset : Obligations.MaxLenIsAnArgumentOfReset := by
  unfold Obligations.MaxLenIsAnArgumentOfReset
  refine ⟨State.reset_eq, fun m v => ?_⟩
  have hidle : streaming (State.resetWith m) = false := not_streaming (.inl (State.resetWith_phase m))
  refine ⟨_, issue_write_len _ v (State.resetWith_busy m) hidle, rfl, rfl, fun accepted => ?_, fun refused => ?_⟩
  · exact ⟨_, issue_start _ rfl accepted, rfl, rfl, rfl⟩
  · exact issue_start_refused _ rfl refused

end Sys2Proof.Machine

/-! SUPPORT and proofs of O40 and O41. The ten cases of `StepCase` fall into five effects on the stream: it is left
alone, reset, started, advanced by a record, or ended. Every invariant is kept by each of the five. -/

namespace Sys2Proof.Machine

/-- A step that leaves the stream and its record alone: a read, an ignored or refused write, a BASE or LEN write outside
a stream, a BUF write, or no action. -/
structure LeavesStream (s t : State) : Prop where
  phase : t.phase = s.phase
  cur : t.cur = s.cur
  record : t.record = s.record
  recValid : t.recValid = s.recValid
  eos : t.eos = s.eos
  trunc : t.trunc = s.trunc
  invalid : t.invalid = s.invalid
  cmdErr : s.cmdErr = true → t.cmdErr = true
  busy : t.busy = s.busy
  maxLen : t.maxLen = s.maxLen
  len : streaming s = true → t.len = s.len

/-- What the reset state, the reset input and START have in common: no record yet, and CUR at 0. -/
structure Fresh (t : State) : Prop where
  phase : t.phase = .idle ∨ t.phase = .lead
  cur : t.cur = 0
  record : t.record = Record.cleared
  recValid : t.recValid = false
  eos : t.eos = false
  trunc : t.trunc = false
  invalid : t.invalid = false

/-- What a decode step that finds no byte leaves (R114). -/
structure Ended (s t : State) : Prop where
  noByte : s.len.toNat ≤ firstByteIndex s
  cur : t.cur = BitVec.ofNat 64 (firstByteIndex s)
  record : t.record = s.record
  phase : t.phase = .exh
  recValid : t.recValid = false
  eos : t.eos = true
  trunc : t.trunc = false
  invalid : t.invalid = false

/-- The effect of a step on the stream. -/
inductive StepEffect (s t : State) : Prop where
  | leaves (h : LeavesStream s t)
  | reset (hs : List HostAction) (hh : s.host = .reset :: hs) (ht : t = resetBlock { s with host := hs })
  | start (v : Word) (hs : List HostAction) (hh : s.host = .regWrite 0x00 8 v :: hs) (hb : s.busy = false)
      (h0 : v.getLsbD 0 = true) (hl : s.len ≤ s.maxLen) (ht : t = startStream { s with host := hs })
  | record (v : Word) (hs : List HostAction) (hh : s.host = .regWrite 0x00 8 v :: hs)
      (h0 : v.getLsbD 0 = false) (h1 : v.getLsbD 1 = true) (hst : streaming s = true)
      (hrest : SameRest { s with host := hs } t)
      (hd : Delivered { s with host := hs } t (firstByteIndex { s with host := hs }))
  | ended (v : Word) (hs : List HostAction) (hh : s.host = .regWrite 0x00 8 v :: hs) (hst : streaming s = true)
      (hrest : SameRest { s with host := hs } t) (he : Ended { s with host := hs } t)

theorem step_effect {s t : State} (h : step s = .next t) : StepEffect s t := by
  cases step_cases h with
  | idle hh ht => subst ht; exact .leaves (by constructor <;> simp)
  | reset hs hh ht => exact .reset hs hh ht
  | bufWrite i b hs hh ht => subst ht; exact .leaves (by constructor <;> simp)
  | read o w hs v d hh ht => subst ht; exact .leaves (by constructor <;> simp)
  | ignored o v hs hh ht => subst ht; exact .leaves (by constructor <;> simp)
  | refused o v hs hh ht => subst ht; exact .leaves (by constructor <;> simp)
  | setBase v hs hh hb hn ht => subst ht; exact .leaves (by constructor <;> simp)
  | setLen v hs hh hb hn ht => subst ht; exact .leaves (by constructor <;> simp [hn])
  | start v hs hh hb h0 hl ht => exact .start v hs hh hb h0 hl ht
  | decode v hs hh hb h0 h1 hst ht =>
    obtain ⟨hrest, hd | ⟨hnb, hcur, hrec, hph, hrv, heos, htr, hinv⟩⟩ := decodeStep_cases ht
    · exact .record v hs hh h0 h1 hst hrest hd
    · exact .ended v hs hh hst hrest ⟨hnb, hcur, hrec, hph, hrv, heos, htr, hinv⟩

theorem LeavesStream.streaming {s t : State} (h : LeavesStream s t) : streaming t = streaming s := by
  simp [Machine.streaming, h.phase]

theorem Ended.not_streaming {s t : State} (h : Ended s t) : streaming t = false := Machine.not_streaming (.inr h.phase)

/-- R114: at the end of the stream CUR stands at LEN, since the skip stops there. -/
theorem Ended.cur_eq {s t : State} (h : Ended s t) (hc : s.cur ≤ s.len) : t.cur = s.len := by
  have hb := (firstByteIndex_bounds s hc).2
  rw [h.cur, Nat.le_antisymm hb h.noByte, BitVec.ofNat_toNat, BitVec.setWidth_eq]

/-! ### A fresh stream -/

theorem fresh_resetWith (m : Word) : Fresh (State.resetWith m) := by constructor <;> simp
theorem fresh_resetBlock (s : State) : Fresh (resetBlock s) := by constructor <;> simp
theorem fresh_startStream (s : State) : Fresh (startStream s) := by constructor <;> simp

theorem Fresh.streamInv {t : State} (h : Fresh t) : t.streamInv := by
  refine ⟨fun _ => ?_, fun hr => ?_, fun hr => ?_, fun _ => h.recValid⟩
  · rw [h.cur]; exact Nat.zero_le _
  all_goals exact absurd hr (by simp [h.recValid])

theorem Fresh.statusDescribesRecord {t : State} (h : Fresh t) : t.statusDescribesRecord := by
  simp [State.statusDescribesRecord, h.trunc, h.invalid, h.recValid]

theorem cellsPastSpanZero_cleared : Record.cleared.cellsPastSpanZero := by
  unfold Record.cellsPastSpanZero; decide

theorem Fresh.cellsPastSpanZero {t : State} (h : Fresh t) : t.record.cellsPastSpanZero :=
  h.record ▸ cellsPastSpanZero_cleared

theorem Fresh.phaseMatchesStatus {t : State} (h : Fresh t) : t.phaseMatchesStatus := by
  rcases h.phase with hp | hp <;> simp [State.phaseMatchesStatus, hp, h.recValid, h.eos]

/-- The reset state of a block of any MAX_LEN has the invariants. -/
theorem inv_resetWith (m : Word) : (State.resetWith m).inv := by
  have hf := fresh_resetWith m
  exact ⟨hf.streamInv, hf.statusDescribesRecord, hf.cellsPastSpanZero, hf.phaseMatchesStatus,
    fun hr => absurd hr (by simp), fun hst => absurd hst (by simp [streaming]), rfl, wf_resetWith m, rfl⟩

/-! ### The stream invariants (R39) -/

theorem LeavesStream.streamInv {s t : State} (h : LeavesStream s t) (hi : s.streamInv) : t.streamInv := by
  obtain ⟨hcur, hspan, hclass, heos⟩ := hi
  refine ⟨fun hst => ?_, ?_, ?_, ?_⟩
  · rw [h.streaming] at hst
    rw [h.cur, h.len hst]; exact hcur hst
  · simpa only [State.spanInRange, h.recValid, h.record] using hspan
  · simpa only [State.spanIsClassLength, h.recValid, h.record] using hclass
  · simpa only [State.eosHasNoRecord, h.recValid, h.eos] using heos

theorem Delivered.streamInv {s t : State} {c : Nat} (h : Delivered s t c) (hl : t.len = s.len) : t.streamInv := by
  have hlo := lengthOf_pos (engineByte s .decode c)
  have hhi := lengthOf_le_ten (engineByte s .decode c)
  have hc := h.hi
  have hn := h.spanLen
  refine ⟨fun _ => ?_, fun _ => ⟨?_, ?_⟩, fun _ htr => ?_, fun he => ?_⟩
  · rw [hl]; exact h.cur_le
  · show 1 ≤ t.record.spanLen.toNat
    omega
  · show t.record.spanLen.toNat ≤ 10
    omega
  · have hwhole : lengthOf (engineByte s .decode c) ≤ s.len.toNat - c := by
      have := h.truncIff; rw [htr] at this; simpa using this.symm
    rw [h.fits.2.2, hn, Nat.min_eq_left hwhole]
  · exact absurd he (by simp [h.eos])

theorem Ended.streamInv {s t : State} (h : Ended s t) : t.streamInv := by
  refine ⟨fun hst => ?_, fun hr => ?_, fun hr => ?_, fun _ => h.recValid⟩
  · exact absurd hst (by simp [h.not_streaming])
  all_goals exact absurd hr (by simp [h.recValid])

/-- R39 (1), (2), (3) and (5). -/
theorem step_keeps_streamInv {s t : State} (hi : s.streamInv) (h : step s = .next t) : t.streamInv := by
  cases step_effect h with
  | leaves hl => exact hl.streamInv hi
  | reset hs hh ht => exact ht ▸ (fresh_resetBlock _).streamInv
  | start v hs hh hb h0 hl ht => exact ht ▸ (fresh_startStream _).streamInv
  | record v hs hh h0 h1 hst hrest hd => exact hd.streamInv hrest.len
  | ended v hs hh hst hrest he => exact he.streamInv

/-- R39 (4): the step that exhausts the stream leaves CUR = LEN. -/
theorem step_exhausts_at_len {s t : State} (hi : s.cursorInStream) (h : step s = .next t) (hs : s.phase ≠ .exh)
    (ht : t.phase = .exh) : t.cur = t.len := by
  cases step_effect h with
  | leaves hl => exact absurd (hl.phase ▸ ht) hs
  | reset hs hh he => subst he; cases ht
  | start v hs hh hb h0 hl he => subst he; cases ht
  | record v hs hh h0 h1 hst hrest hd =>
    have htr : t.record.trunc = true := by
      by_contra hne
      rw [hd.phase, if_neg hne] at ht
      cases ht
    rw [hd.cur_eq htr, hrest.len]
  | ended v hs hh hst hrest he => rw [he.cur_eq (hi hst), hrest.len]

/-- R39 (4): while the stream stays exhausted CUR does not move. -/
theorem step_keeps_cur_in_exh {s t : State} (h : step s = .next t) (hs : s.phase = .exh) (ht : t.phase = .exh) :
    t.cur = s.cur := by
  have hn : streaming s = false := not_streaming (.inr hs)
  cases step_effect h with
  | leaves hl => exact hl.cur
  | reset hs hh he => subst he; cases ht
  | start v hs hh hb h0 hl he => subst he; cases ht
  | record v hs hh h0 h1 hst hrest hd => exact absurd hst (by simp [hn])
  | ended v hs hh hst hrest he => exact absurd hst (by simp [hn])

/-- Settles O40: R39 (1), (2), (3) and (5) by the effect of the step, (4) by where the ending step leaves CUR. -/
theorem stepKeepsStreamInvariants : Obligations.StepKeepsStreamInvariants := by
  unfold Obligations.StepKeepsStreamInvariants
  refine ⟨(fresh_resetWith _).streamInv, fun s t hi h => ⟨step_keeps_streamInv hi h, step_exhausts_at_len hi.1 h, ?_⟩⟩
  intro hs hcur ht hlen
  rw [step_keeps_cur_in_exh h hs ht, hcur, hlen]

/-! ### The other invariants -/

theorem step_keeps_statusDescribesRecord {s t : State} (hi : s.statusDescribesRecord) (h : step s = .next t) :
    t.statusDescribesRecord := by
  cases step_effect h with
  | leaves hl =>
    simpa only [State.statusDescribesRecord, hl.trunc, hl.invalid, hl.recValid, hl.record] using hi
  | reset hs hh ht => exact ht ▸ (fresh_resetBlock _).statusDescribesRecord
  | start v hs hh hb h0 hl ht => exact ht ▸ (fresh_startStream _).statusDescribesRecord
  | record v hs hh h0 h1 hst hrest hd =>
    simp [State.statusDescribesRecord, hd.recValid, hd.trunc, hd.invalid]
  | ended v hs hh hst hrest he => simp [State.statusDescribesRecord, he.recValid, he.trunc, he.invalid]

theorem step_keeps_cellsPastSpanZero {s t : State} (hi : s.record.cellsPastSpanZero) (h : step s = .next t) :
    t.record.cellsPastSpanZero := by
  cases step_effect h with
  | leaves hl => exact hl.record ▸ hi
  | reset hs hh ht => exact ht ▸ (fresh_resetBlock _).cellsPastSpanZero
  | start v hs hh hb h0 hl ht => exact ht ▸ (fresh_startStream _).cellsPastSpanZero
  | record v hs hh h0 h1 hst hrest hd => exact hd.fits.2.1
  | ended v hs hh hst hrest he => exact he.record ▸ hi

theorem Delivered.phaseMatchesStatus {s t : State} {c : Nat} (h : Delivered s t c) : t.phaseMatchesStatus := by
  cases htr : t.record.trunc <;> simp [State.phaseMatchesStatus, h.phase, h.recValid, htr]

theorem step_keeps_phaseMatchesStatus {s t : State} (hi : s.phaseMatchesStatus) (h : step s = .next t) :
    t.phaseMatchesStatus := by
  cases step_effect h with
  | leaves hl => simpa only [State.phaseMatchesStatus, hl.phase, hl.recValid, hl.record, hl.eos] using hi
  | reset hs hh ht => exact ht ▸ (fresh_resetBlock _).phaseMatchesStatus
  | start v hs hh hb h0 hl ht => exact ht ▸ (fresh_startStream _).phaseMatchesStatus
  | record v hs hh h0 h1 hst hrest hd => exact hd.phaseMatchesStatus
  | ended v hs hh hst hrest he => simp [State.phaseMatchesStatus, he.phase, he.eos, he.recValid]

theorem step_keeps_fitsFormat {s t : State} (hi : s.recValid = true → s.record.fitsFormat) (h : step s = .next t)
    (hr : t.recValid = true) : t.record.fitsFormat := by
  cases step_effect h with
  | leaves hl => rw [hl.record]; exact hi (hl.recValid ▸ hr)
  | reset hs hh ht => subst ht; cases hr
  | start v hs hh hb h0 hl ht => subst ht; cases hr
  | record v hs hh h0 h1 hst hrest hd => exact hd.fits.1
  | ended v hs hh hst hrest he => exact absurd hr (by simp [he.recValid])

theorem step_keeps_streamReachable {s t : State} (hi : s.streamReachable) (h : step s = .next t) :
    t.streamReachable := by
  intro hst'
  cases step_effect h with
  | leaves hl =>
    rw [hl.streaming] at hst'
    rw [hl.len hst', hl.maxLen]; exact hi hst'
  | reset hs hh ht => subst ht; cases hst'
  | start v hs hh hb h0 hl ht => subst ht; exact hl
  | record v hs hh h0 h1 hst hrest hd => rw [hrest.len, hrest.maxLen]; exact hi hst
  | ended v hs hh hst hrest he => rw [hrest.len, hrest.maxLen]; exact hi hst

theorem step_keeps_notBusy {s t : State} (hi : s.notBusy) (h : step s = .next t) : t.notBusy := by
  unfold State.notBusy at hi ⊢
  cases step_effect h with
  | leaves hl => rw [hl.busy, hi]
  | reset hs hh ht => subst ht; rfl
  | start v hs hh hb h0 hl ht => subst ht; exact hb
  | record v hs hh h0 h1 hst hrest hd => rw [hrest.busy]; exact hi
  | ended v hs hh hst hrest he => rw [hrest.busy]; exact hi

theorem bufWrite_keeps_canonical {s : State} (hi : s.canonical) (i : Word) (b : Byte) :
    (bufWrite i b s).canonical := by
  obtain ⟨hbuf, hdirty⟩ := hi
  refine ⟨Memory.wf_write hbuf i.isLt b, ?_⟩
  rw [bufWrite_dirty]
  split
  · exact risingFrom_insertIndex hdirty (Nat.zero_le _)
  · exact hdirty

/-- Only a BUF write changes the buffer; the dirty indices grow by one or are forgotten. -/
theorem step_keeps_canonical {s t : State} (hi : s.canonical) (h : step s = .next t) : t.canonical := by
  cases step_cases h with
  | bufWrite i b hs hh ht => exact ht ▸ bufWrite_keeps_canonical (s := { s with host := hs }) hi i b
  | decode v hs hh hb h0 h1 hst ht =>
    have hrest := (decodeStep_cases ht).1
    unfold State.canonical
    rw [hrest.buf, hrest.dirty]; exact hi
  | idle hh ht => exact ht ▸ hi
  | reset hs hh ht => subst ht; exact ⟨hi.1, rfl⟩
  | start v hs hh hb h0 hl ht => subst ht; exact ⟨hi.1, rfl⟩
  | read o w hs v d hh ht => subst ht; exact hi
  | ignored o v hs hh ht => subst ht; exact hi
  | refused o v hs hh ht => subst ht; exact hi
  | setBase v hs hh hb hn ht => subst ht; exact hi
  | setLen v hs hh hb hn ht => subst ht; exact hi

/-- Settles O41: each invariant is kept by itself. -/
theorem stepKeepsAllInvariants : Obligations.StepKeepsAllInvariants := by
  unfold Obligations.StepKeepsAllInvariants
  intro s t hi h
  obtain ⟨hstream, hstatus, hcells, hphase, hfits, hreach, hbusy, hcanon⟩ := hi
  exact ⟨step_keeps_streamInv hstream h, step_keeps_statusDescribesRecord hstatus h,
    step_keeps_cellsPastSpanZero hcells h, step_keeps_phaseMatchesStatus hphase h, step_keeps_fitsFormat hfits h,
    step_keeps_streamReachable hreach h, step_keeps_notBusy hbusy h, step_keeps_canonical hcanon h⟩

end Sys2Proof.Machine

/-! Proofs of O14, O42, O44, O45 and O46. -/

namespace Sys2Proof.Machine

/-! ### The frame of an instruction -/

/-- Settles O14: every instruction is one delivery, which commits a record or ends the stream. -/
theorem instructionFrame : Obligations.InstructionFrame := by
  unfold Obligations.InstructionFrame
  intro i s
  obtain ⟨fmt, valid, bytes, -, he⟩ := exec_is_deliver i s
  rw [he]
  by_cases h : s.cur.toNat < s.len.toNat
  · exact ⟨_, deliver_eq fmt valid bytes s _ rfl h, by simp⟩
  · exact ⟨_, deliver_eos fmt valid bytes s (Nat.le_of_not_lt h), by simp⟩

/-! ### What changes CMD_ERR, REC, BASE and LEN -/

/-- Settles O42: of the five effects only the reset and START touch CMD_ERR in a way that clears it. -/
theorem cmdErrIsSticky : Obligations.CmdErrIsSticky := by
  unfold Obligations.CmdErrIsSticky
  intro s t hs h ht
  cases step_effect h with
  | leaves hl => exact absurd (hl.cmdErr hs) (by simp [ht])
  | reset hs' hh he => exact ⟨_, _, hh, .inl rfl⟩
  | start v hs' hh hb h0 hl he => exact ⟨_, _, hh, .inr ⟨v, rfl, h0⟩⟩
  | record v hs' hh h0 h1 hst hrest hd => exact absurd (hrest.cmdErr.trans hs) (by simp [ht])
  | ended v hs' hh hst hrest he => exact absurd (hrest.cmdErr.trans hs) (by simp [ht])

/-- Settles O45: a decode step that ends the stream leaves REC, one that delivers a record leaves REC_VALID = 1. -/
theorem recordChangesOnlyByDelivery : Obligations.RecordChangesOnlyByDelivery := by
  unfold Obligations.RecordChangesOnlyByDelivery
  intro s t h hne
  cases step_effect h with
  | leaves hl => exact absurd hl.record hne
  | reset hs hh he => exact ⟨_, _, hh, .inl rfl⟩
  | start v hs hh hb h0 hl he => exact ⟨_, _, hh, .inr (.inl ⟨v, rfl, h0⟩)⟩
  | record v hs hh h0 h1 hst hrest hd => exact ⟨_, _, hh, .inr (.inr ⟨⟨v, rfl, h0, h1⟩, hst, hd.recValid⟩)⟩
  | ended v hs hh hst hrest he => exact absurd he.record hne

/-- What a step can do to BASE and LEN: keep both, clear both by reset, or set one outside a stream. -/
theorem step_base_len {s t : State} (h : step s = .next t) :
    (t.base = s.base ∧ t.len = s.len) ∨ (∃ hs, s.host = .reset :: hs) ∨
    (streaming s = false ∧ t.len = s.len ∧ ∃ hs, s.host = .regWrite 0x10 8 t.base :: hs) ∨
    (streaming s = false ∧ t.base = s.base ∧ ∃ hs, s.host = .regWrite 0x18 8 t.len :: hs) := by
  cases step_cases h with
  | reset hs hh ht => exact .inr (.inl ⟨hs, hh⟩)
  | setBase v hs hh hb hn ht => subst ht; exact .inr (.inr (.inl ⟨hn, rfl, hs, hh⟩))
  | setLen v hs hh hb hn ht => subst ht; exact .inr (.inr (.inr ⟨hn, rfl, hs, hh⟩))
  | decode v hs hh hb h0 h1 hst ht =>
    have hrest := (decodeStep_cases ht).1
    exact .inl ⟨hrest.base, hrest.len⟩
  | idle hh ht => subst ht; exact .inl ⟨rfl, rfl⟩
  | bufWrite i b hs hh ht => subst ht; exact .inl ⟨rfl, rfl⟩
  | read o w hs v d hh ht => subst ht; exact .inl ⟨rfl, rfl⟩
  | ignored o v hs hh ht => subst ht; exact .inl ⟨rfl, rfl⟩
  | refused o v hs hh ht => subst ht; exact .inl ⟨rfl, rfl⟩
  | start v hs hh hb h0 hl ht => subst ht; exact .inl ⟨rfl, rfl⟩

/-- Settles O44: BASE and LEN are set outside a stream only, so a stream sees just the reset. -/
theorem baseAndLenConstantInStream : Obligations.BaseAndLenConstantInStream := by
  unfold Obligations.BaseAndLenConstantInStream
  intro s t h
  obtain ⟨hbase, hlen⟩ | ⟨hs, hh⟩ | ⟨hn, hlen, hs, hh⟩ | ⟨hn, hbase, hs, hh⟩ := step_base_len h
  · exact ⟨fun _ _ => ⟨hbase, hlen⟩, fun hne => absurd hbase hne, fun hne => absurd hlen hne⟩
  · exact ⟨fun _ hno => absurd hh (hno hs), fun _ => ⟨_, hs, hh, .inl rfl⟩, fun _ => ⟨_, hs, hh, .inl rfl⟩⟩
  · exact ⟨fun hst => absurd hst (by simp [hn]), fun _ => ⟨_, hs, hh, .inr rfl⟩, fun hne => absurd hlen hne⟩
  · exact ⟨fun hst => absurd hst (by simp [hn]), fun hne => absurd hbase hne, fun _ => ⟨_, hs, hh, .inr rfl⟩⟩

/-! ### A host that keeps its duties -/

/-- A quiet answer: a next state whose CMD_ERR the action did not set, and whose stream, if one runs, is undisturbed. -/
def Quiet (s : State) (o : Outcome) : Prop :=
  ∃ t, o = .next t ∧ (t.cmdErr = true → s.cmdErr = true) ∧ (streaming t = true → t.undisturbed)

theorem quiet_next {s t : State} (hc : t.cmdErr = s.cmdErr) (hu : streaming t = true → t.undisturbed) :
    Quiet s (.next t) := ⟨t, rfl, fun h => hc ▸ h, hu⟩

/-- A state with the dirty indices and the LEN of an undisturbed one is undisturbed. -/
theorem State.undisturbed.of_eq {s t : State} (h : s.undisturbed) (hl : t.len = s.len) (hd : t.dirty = s.dirty) :
    t.undisturbed := by
  intro i hi
  rw [hd]; exact h i (hl ▸ hi)

/-- R310: a BUF write outside the stream's bytes disturbs none of them. -/
theorem bufWrite_undisturbed {s : State} (hu : s.undisturbed) {i : Word} (b : Byte)
    (hi : streaming s = true → ¬ i < s.len) : streaming (bufWrite i b s) = true → (bufWrite i b s).undisturbed := by
  intro hst j hj
  have hst' : streaming s = true := hst
  have hle : ¬ i.toNat < s.len.toNat := hi hst'
  have hne : j ≠ i.toNat := fun h => hle (h ▸ hj)
  rw [bufWrite_dirty, if_pos hst', contains_insertIndex, hu j hj]
  simp [hne]

theorem quiet_decodeStep {s : State} (hu : s.undisturbed) : Quiet s (decodeStep s) := by
  obtain ⟨t, ht⟩ : ∃ t, decodeStep s = .next t := by
    by_cases h : firstByteIndex s < s.len.toNat
    · exact ⟨_, decodeStep_record s _ rfl h⟩
    · exact ⟨_, decodeStep_eos s (Nat.le_of_not_lt h)⟩
  have hrest := (decodeStep_cases ht).1
  rw [ht]
  exact quiet_next hrest.cmdErr fun _ => hu.of_eq hrest.len hrest.dirty

theorem quiet_startCommand {s : State} (hl : s.len ≤ s.maxLen) : Quiet s (startCommand s) := by
  rw [startCommand, if_neg (BitVec.not_lt.mpr hl)]
  exact ⟨_, rfl, by simp, fun _ _ _ => rfl⟩

theorem quiet_writeCtrl {s : State} (hu : s.undisturbed) (hb : s.busy = false) {v : Word}
    (hstart : v.getLsbD 0 = true → s.len ≤ s.maxLen)
    (hstep : v.getLsbD 0 = false → v.getLsbD 1 = true → streaming s = true) : Quiet s (writeCtrl v s) := by
  rw [writeCtrl_ok hb]
  cases h0 : v.getLsbD 0 with
  | true => exact quiet_startCommand (hstart h0)
  | false =>
    cases h1 : v.getLsbD 1 with
    | true =>
      rw [if_neg (by simp), if_pos rfl, stepCommand, if_pos (hstep h0 h1)]
      exact quiet_decodeStep hu
    | false => exact quiet_next rfl fun _ => hu

/-- Every offset of the register map has a register (R30). -/
theorem portRegAt_of_lt {o : Nat} (h : o < 0x80) : ∃ r, portRegAt o = some r :=
  Option.isSome_iff_exists.mp ((by decide : ∀ o < 0x80, (portRegAt o).isSome = true) o h)

/-- The host's duties for a register write (R30, R33, R301, R313), one implication a duty. -/
theorem keepsProtocol_regWrite {s : State} {o w : Nat} {v : Word} (hk : keepsProtocol s (.regWrite o w v) = true) :
    w = 8 ∧ o % 8 = 0 ∧ o < 0x80 ∧ (o = 0x10 ∨ o = 0x18 → streaming s = false) ∧
    (o = 0 → v.getLsbD 0 = true → s.len ≤ s.maxLen) ∧
    (o = 0 → v.getLsbD 0 = false → v.getLsbD 1 = true → streaming s = true) := by
  simp only [keepsProtocol, wholeAccess, Bool.and_eq_true, beq_iff_eq, decide_eq_true_eq, Bool.not_eq_true'] at hk
  obtain ⟨⟨⟨⟨⟨hw, h8⟩, hmap⟩, hcfg⟩, hstart⟩, hstep⟩ := hk
  refine ⟨hw, h8, hmap, fun ho => ?_, fun ho h0 => ?_, fun ho h0 h1 => ?_⟩
  · rcases ho with rfl | rfl <;> simpa using hcfg
  · simpa [ho, h0, -BitVec.getLsbD_eq_getElem] using hstart
  · simpa [ho, h0, h1, -BitVec.getLsbD_eq_getElem] using hstep

theorem quiet_regWrite {s : State} (hu : s.undisturbed) (hb : s.busy = false) {o w : Nat} {v : Word}
    (hk : keepsProtocol s (.regWrite o w v) = true) : Quiet s (issue (.regWrite o w v) s) := by
  obtain ⟨rfl, h8, hmap, hcfg, hstart, hstep⟩ := keepsProtocol_regWrite hk
  obtain ⟨r, hr⟩ := portRegAt_of_lt hmap
  rw [issue_write s o r v h8 hr]
  cases r with
  | ctrl =>
    have ho := portRegAt_ctrl hr
    exact quiet_writeCtrl (s := { s with host := [] }) hu hb (hstart ho) (hstep ho)
  | base =>
    have hn := hcfg (.inl (portRegAt_base hr))
    rw [writeReg, writeBase_ok (s := { s with host := [] }) hb hn v]
    exact quiet_next rfl fun _ => hu
  | len =>
    have hn := hcfg (.inr (portRegAt_len hr))
    rw [writeReg, writeLen_ok (s := { s with host := [] }) hb hn v]
    exact quiet_next rfl fun hst => absurd hst (Bool.eq_false_iff.mp hn)
  | status | cur | recAddr | recInfo | recD | recSpan0 | recSpan1 | reserved => exact quiet_next rfl fun _ => hu

theorem quiet_regRead {s : State} (hu : s.undisturbed) (hb : s.busy = false) {o w : Nat}
    (hk : keepsProtocol s (.regRead o w) = true) : Quiet s (issue (.regRead o w) s) := by
  simp only [keepsProtocol, wholeAccess, Bool.and_eq_true, beq_iff_eq, decide_eq_true_eq] at hk
  obtain ⟨⟨rfl, h8⟩, hmap⟩ := hk
  obtain ⟨r, hr⟩ := portRegAt_of_lt hmap
  rw [issue_read_quiet s o r h8 hr hb]
  exact quiet_next rfl fun _ => hu

/-- Settles O46: with BUSY = 0 each kind of action that keeps its duty is answered quietly. -/
theorem protocolKeepsBlockQuiet : Obligations.ProtocolKeepsBlockQuiet := by
  unfold Obligations.ProtocolKeepsBlockQuiet
  intro s a hi hu hk
  have hb : s.busy = false := by
    obtain ⟨-, -, -, -, -, -, hb, -⟩ := hi
    exact hb
  cases a with
  | reset => exact ⟨_, rfl, by simp, fun h => by cases h⟩
  | bufWrite i b =>
    refine quiet_next (t := bufWrite i b { s with host := [] }) rfl (bufWrite_undisturbed hu b fun hst => ?_)
    simpa [keepsProtocol, show streaming s = true from hst] using hk
  | regRead o w => exact quiet_regRead hu hb hk
  | regWrite o w v => exact quiet_regWrite hu hb hk

end Sys2Proof.Machine

/-! Proofs of O25 to O28, O30 to O34. -/

namespace Sys2Proof.Machine

open Sys2Proof.Claims

/-! ### Reads and writes of one register -/

theorem readsAs_of_quiet {s : State} (hb : s.busy = false) {o : Nat} (r : PortReg) (hr : portRegAt o = some r)
    (h8 : o % 8 = 0) : ReadsAs s o (regValue s r) := issue_read_quiet s o r h8 hr hb

theorem readsFreely_of_busy {s : State} (hb : s.busy = true) {o : Nat} (r : PortReg) (hr : portRegAt o = some r)
    (h8 : o % 8 = 0) : ReadsFreely s o (regValueBusy s (Config.freeWord s.draws) r) := by
  unfold ReadsFreely
  rw [issue_read s o r h8 hr, readReg, if_pos hb]
  cases r <;> rfl

theorem issue_ctrl (s : State) (v : Word) : issue (.regWrite 0x00 8 v) s = writeCtrl v { s with host := [] } :=
  issue_write s 0x00 .ctrl v rfl rfl

theorem issue_ctrl_start {s : State} (hb : s.busy = false) {v : Word} (h0 : v.getLsbD 0 = true) :
    issue (.regWrite 0x00 8 v) s = startCommand { s with host := [] } := by
  rw [issue_ctrl, writeCtrl_ok (s := { s with host := [] }) hb, if_pos h0]

theorem issue_ctrl_step {s : State} (hb : s.busy = false) {v : Word} (h0 : v.getLsbD 0 = false)
    (h1 : v.getLsbD 1 = true) : issue (.regWrite 0x00 8 v) s = stepCommand { s with host := [] } := by
  rw [issue_ctrl, writeCtrl_ok (s := { s with host := [] }) hb, if_neg (Bool.eq_false_iff.mp h0), if_pos h1]

theorem issue_ctrl_neither {s : State} (hb : s.busy = false) {v : Word} (h0 : v.getLsbD 0 = false)
    (h1 : v.getLsbD 1 = false) : issue (.regWrite 0x00 8 v) s = .next { s with host := [] } := by
  rw [issue_ctrl, writeCtrl_ok (s := { s with host := [] }) hb, if_neg (Bool.eq_false_iff.mp h0),
    if_neg (Bool.eq_false_iff.mp h1)]

theorem stepCommand_refused {s : State} (hn : streaming s = false) : stepCommand s = .next (refuseCommand s) :=
  if_neg (Bool.eq_false_iff.mp hn)

theorem writeCtrl_busy {s : State} (hb : s.busy = true) (v : Word) : writeCtrl v s = .next (refuseCommand s) :=
  if_pos hb

theorem writeBase_locked {s : State} (hl : configLocked s = true) (v : Word) :
    writeBase v s = .next (refuseCommand s) := if_pos hl

theorem writeLen_locked {s : State} (hl : configLocked s = true) (v : Word) :
    writeLen v s = .next (refuseCommand s) := if_pos hl

theorem configLocked_of_busy {s : State} (hb : s.busy = true) : configLocked s = true := by simp [configLocked, hb]

theorem configLocked_of_streaming {s : State} (hst : streaming s = true) : configLocked s = true := by
  simp [configLocked, hst]

/-- Settles O25: BUSY, then the START bit, then the STEP bit decide what a CTRL write does. -/
theorem ctrlWriteBits : Obligations.CtrlWriteBits := by
  unfold Obligations.CtrlWriteBits
  refine ⟨fun s hb => readsAs_of_quiet hb .ctrl rfl rfl, fun s v hb h0 => ?_, fun s v hb h0 h1 => ?_,
    fun s v hb h0 h1 => issue_ctrl_neither hb h0 h1, fun s v hb h0 h1 hp => ?_, fun s v hb => ?_⟩
  · rw [issue_ctrl_start hb h0, issue_start_eq s hb]
  · rw [issue_ctrl_step hb h0 h1, HostAction.stepCmd, issue_ctrl_step hb rfl rfl]
  · rw [issue_ctrl_step hb h0 h1]
    exact stepCommand_refused (s := { s with host := [] }) (not_streaming hp)
  · rw [issue_ctrl]
    exact writeCtrl_busy (s := { s with host := [] }) hb v

/-! ### BASE and LEN -/

theorem issue_base (s : State) (v : Word) : issue (.regWrite 0x10 8 v) s = writeBase v { s with host := [] } :=
  issue_write s 0x10 .base v rfl rfl

theorem issue_len (s : State) (v : Word) : issue (.regWrite 0x18 8 v) s = writeLen v { s with host := [] } :=
  issue_write s 0x18 .len v rfl rfl

/-- Settles O26: a running stream locks BASE and LEN (R33). -/
theorem baseAndLenWrites : Obligations.BaseAndLenWrites := by
  unfold Obligations.BaseAndLenWrites
  refine ⟨fun s v hb hp => ⟨?_, issue_write_len s v hb (not_streaming hp)⟩, fun s v hp => ⟨?_, ?_⟩,
    fun s hb => ⟨readsAs_of_quiet hb .base rfl rfl, readsAs_of_quiet hb .len rfl rfl⟩, issue_start_refused⟩
  · rw [issue_base]; exact writeBase_ok (s := { s with host := [] }) hb (not_streaming hp) v
  · rw [issue_base]
    exact writeBase_locked (s := { s with host := [] }) (configLocked_of_streaming (is_streaming hp)) v
  · rw [issue_len]
    exact writeLen_locked (s := { s with host := [] }) (configLocked_of_streaming (is_streaming hp)) v

/-! ### The register map -/

theorem portRegAt_reserved {o : Nat} (h1 : 0x50 ≤ o) (h2 : o < 0x80) : portRegAt o = some .reserved :=
  (by decide : ∀ o < 0x80, 0x50 ≤ o → portRegAt o = some .reserved) o h2 h1

/-- Only CTRL, BASE and LEN take a write (R30). -/
theorem issue_write_ignored (s : State) {o : Nat} (v : Word) (h8 : o % 8 = 0) (hmap : o < 0x80)
    (hc : o ≠ 0x00) (hb : o ≠ 0x10) (hl : o ≠ 0x18) : issue (.regWrite o 8 v) s = .next { s with host := [] } := by
  obtain ⟨r, hr⟩ := portRegAt_of_lt hmap
  rw [issue_write s o r v h8 hr]
  cases r with
  | ctrl => exact absurd (portRegAt_ctrl hr) hc
  | base => exact absurd (portRegAt_base hr) hb
  | len => exact absurd (portRegAt_len hr) hl
  | status | cur | recAddr | recInfo | recD | recSpan0 | recSpan1 | reserved => rfl

theorem issue_partial_refused (s : State) {o w : Nat} (v : Word) (h : w ≠ 8 ∨ o % 8 ≠ 0) :
    issue (.regWrite o w v) s = .refused (.portAccess o w) ∧ issue (.regRead o w) s = .refused (.portAccess o w) := by
  have hw : ¬ wholeAccess o w = true := by
    simp only [wholeAccess, Bool.and_eq_true, beq_iff_eq]; tauto
  exact ⟨if_neg hw, if_neg hw⟩

/-- Settles O27: by the register the offset names, and for a partial access before one is looked up. -/
theorem registerMapAccess : Obligations.RegisterMapAccess := by
  unfold Obligations.RegisterMapAccess
  refine ⟨fun s hb => ⟨?_, ?_, ?_⟩, fun s o hb h1 h2 h8 => ?_, fun s o v ho h8 => ?_,
    fun s o w v h => issue_partial_refused s v h⟩
  · exact readsAs_of_quiet hb .cur rfl rfl
  · exact readsAs_of_quiet hb .recAddr rfl rfl
  · exact readsAs_of_quiet hb .recD rfl rfl
  · exact readsAs_of_quiet hb _ (portRegAt_reserved h1 h2) h8
  · exact issue_write_ignored s v h8 (by omega) (by omega) (by omega) (by omega)

/-! ### The layouts of STATUS, REC_INFO and the span registers -/

/-- The flag bits of STATUS (R32). -/
theorem statusWord_bits (s : State) :
    (statusWord s).getLsbD 0 = s.busy ∧ (statusWord s).getLsbD 1 = s.recValid ∧ (statusWord s).getLsbD 2 = s.eos ∧
    (statusWord s).getLsbD 3 = s.trunc ∧ (statusWord s).getLsbD 4 = s.invalid ∧
    (statusWord s).getLsbD 5 = exhausted s ∧ (statusWord s).getLsbD 6 = s.cmdErr ∧
    (statusWord s).getLsbD 7 = false := by
  refine ⟨?_, ?_, ?_, ?_, ?_, ?_, ?_, ?_⟩ <;> rw [statusWord, BitVec.getLsbD_append] <;>
    simp only [BitVec.getLsbD_append, Nat.reduceLT, Nat.reduceSub, reduceIte, BitVec.getLsbD_ofBool, decide_true,
      Bool.true_and, BitVec.ofNat_eq_ofNat, BitVec.getLsbD_zero]

theorem statusWord_phase (s : State) : (statusWord s).extractLsb' 8 2 = phaseCode s.phase := by
  rw [statusWord, BitVec.extractLsb'_append_eq_of_le (by decide)]
  simp (disch := decide) only [BitVec.extractLsb'_append_eq_of_le, BitVec.extractLsb'_append_eq_of_add_le,
    Nat.reduceSub, BitVec.extractLsb'_eq_self]

theorem statusWord_reserved (s : State) : (statusWord s).extractLsb' 10 54 = 0 := by
  rw [statusWord, BitVec.extractLsb'_append_eq_of_le (by decide)]
  simp (disch := decide) only [BitVec.extractLsb'_append_eq_of_le, Nat.reduceSub, BitVec.extractLsb'_eq_self]

/-- Settles O28: the read answers `statusWord`, whose fields stand where R32 puts them. -/
theorem statusReadLayout : Obligations.StatusReadLayout := by
  unfold Obligations.StatusReadLayout
  intro s hb
  obtain ⟨hbusy, hrv, heos, htr, hinv, hexh, herr, h7⟩ := statusWord_bits s
  refine ⟨statusWord s, readsAs_of_quiet hb .status rfl rfl, hbusy.trans hb, hrv, heos, htr, hinv, ?_, herr, h7, ?_,
    statusWord_reserved s⟩
  · rw [hexh]; simp [exhausted]
  · rw [statusWord_phase]
    cases s.phase <;> rfl

/-- The fields of REC_INFO (R34). -/
theorem recInfoWord_fields (r : Record) :
    (recInfoWord r).extractLsb' 0 4 = r.ifun ∧ (recInfoWord r).extractLsb' 4 4 = r.icode ∧
    (recInfoWord r).extractLsb' 8 4 = r.rb ∧ (recInfoWord r).extractLsb' 12 4 = r.ra ∧
    (recInfoWord r).extractLsb' 16 4 = r.spanLen ∧ (recInfoWord r).extractLsb' 20 3 = r.fmt.code := by
  refine ⟨BitVec.extractLsb'_append_eq_right, ?_, ?_, ?_, ?_, ?_⟩ <;>
    rw [recInfoWord, BitVec.extractLsb'_append_eq_of_le (by decide)] <;>
    simp (disch := decide) only [BitVec.extractLsb'_append_eq_of_le, BitVec.extractLsb'_append_eq_of_add_le,
      Nat.reduceSub, BitVec.extractLsb'_eq_self]

theorem recInfoWord_bits (r : Record) :
    (recInfoWord r).getLsbD 23 = false ∧ (recInfoWord r).getLsbD 24 = r.valid ∧
    (recInfoWord r).getLsbD 25 = r.trunc := by
  refine ⟨?_, ?_, ?_⟩ <;> rw [recInfoWord, BitVec.getLsbD_append] <;>
    simp only [BitVec.getLsbD_append, Nat.reduceLT, Nat.reduceSub, reduceIte, BitVec.getLsbD_ofBool, decide_true,
      Bool.true_and, BitVec.ofNat_eq_ofNat, BitVec.getLsbD_zero]

theorem recInfoWord_reserved (r : Record) : (recInfoWord r).extractLsb' 26 38 = 0 := by
  rw [recInfoWord, BitVec.extractLsb'_append_eq_of_le (by decide)]
  simp (disch := decide) only [BitVec.extractLsb'_append_eq_of_le, Nat.reduceSub, BitVec.extractLsb'_eq_self]

/-- Settles O30: the read answers `recInfoWord`, whose fields stand where R34 puts them. -/
theorem recInfoReadLayout : Obligations.RecInfoReadLayout := by
  unfold Obligations.RecInfoReadLayout
  intro s hb
  obtain ⟨hifun, hicode, hrb, hra, hlen, hfmt⟩ := recInfoWord_fields s.record
  obtain ⟨h23, hvalid, htrunc⟩ := recInfoWord_bits s.record
  refine ⟨recInfoWord s.record, readsAs_of_quiet hb .recInfo rfl rfl, hifun, hicode, hrb, hra, hlen, ?_, h23, hvalid,
    htrunc, recInfoWord_reserved s.record⟩
  rw [hfmt]
  cases s.record.fmt <;> rfl

/-- Cell `k` of the span at bits 8k+7 to 8k of REC_SPAN0 (R35). -/
theorem recSpan0Word_cell (r : Record) {k : Nat} (hk : k < 8) :
    (recSpan0Word r).extractLsb' (8 * k) 8 = r.span[k] := by
  interval_cases k
  · exact BitVec.extractLsb'_append_eq_right
  all_goals
    rw [recSpan0Word, BitVec.extractLsb'_append_eq_of_le (by decide)]
    simp (disch := decide) only [BitVec.extractLsb'_append_eq_of_le, BitVec.extractLsb'_append_eq_of_add_le,
      Nat.reduceMul, Nat.reduceSub, BitVec.extractLsb'_eq_self]

/-- Cells 8 and 9 of the span in REC_SPAN1 (R35). -/
theorem recSpan1Word_cell (r : Record) {k : Nat} (hk : k < 2) :
    (recSpan1Word r).extractLsb' (8 * k) 8 = r.span[8 + k] := by
  interval_cases k
  · exact BitVec.extractLsb'_append_eq_right
  · rw [recSpan1Word, BitVec.extractLsb'_append_eq_of_le (by decide)]
    exact BitVec.extractLsb'_append_eq_right

theorem recSpan1Word_reserved (r : Record) : (recSpan1Word r).extractLsb' 16 48 = 0 := by
  rw [recSpan1Word, BitVec.extractLsb'_append_eq_of_le (by decide)]
  simp (disch := decide) only [BitVec.extractLsb'_append_eq_of_le, Nat.reduceSub, BitVec.extractLsb'_eq_self]

/-- A byte below a word weighs 1, and the word above it 256 (R13). -/
theorem toNat_append_byte {n : Nat} (hi : BitVec n) (lo : Byte) : (hi ++ lo).toNat = lo.toNat + 256 * hi.toNat := by
  rw [BitVec.toNat_append, ← Nat.shiftLeft_add_eq_or_of_lt lo.isLt, Nat.shiftLeft_eq]
  omega

theorem take_eight_cells (v : Vector Byte 10) :
    v.toList.take 8 = [v[0], v[1], v[2], v[3], v[4], v[5], v[6], v[7]] := by
  apply List.ext_getElem
  · simp
  · intro i h1 h2
    simp at h2
    interval_cases i <;> simp

/-- REC_SPAN0 is LE of the first eight cells. -/
theorem recSpan0Word_eq_le (r : Record) : recSpan0Word r = le (r.span.toList.take 8) := by
  apply BitVec.eq_of_toNat_eq
  rw [take_eight_cells, toNat_le _ (by simp)]
  simp only [recSpan0Word, toNat_append_byte, leNat]
  omega

/-- Settles O31: both registers cell by cell; a cell past the span is zero by the invariant. -/
theorem spanRegistersLayout : Obligations.SpanRegistersLayout := by
  unfold Obligations.SpanRegistersLayout
  intro s hb
  refine ⟨recSpan0Word s.record, recSpan1Word s.record, readsAs_of_quiet hb .recSpan0 rfl rfl,
    readsAs_of_quiet hb .recSpan1 rfl rfl, fun k => recSpan0Word_cell s.record k.isLt, recSpan0Word_eq_le s.record,
    recSpan1Word_cell s.record (k := 0) (by decide), recSpan1Word_cell s.record (k := 1) (by decide),
    recSpan1Word_reserved s.record,
    fun hz => ⟨fun k hk => ?_, fun k hk => ?_⟩⟩
  · rw [recSpan0Word_cell _ k.isLt]; exact hz ⟨k.val, by omega⟩ hk
  · rw [recSpan1Word_cell _ k.isLt]; exact hz ⟨8 + k.val, by omega⟩ hk

/-! ### While a command is in progress -/

theorem statusMask_bit {k : Nat} (hk : k < 64) : statusMask.getLsbD k = decide (k ≤ 6 ∨ k = 8 ∨ k = 9) :=
  (by decide : ∀ k < 64, statusMask.getLsbD k = decide (k ≤ 6 ∨ k = 8 ∨ k = 9)) k hk

theorem recInfoMask_bit {k : Nat} (hk : k < 64) : recInfoMask.getLsbD k = decide (k ≤ 25 ∧ k ≠ 23) :=
  (by decide : ∀ k < 64, recInfoMask.getLsbD k = decide (k ≤ 25 ∧ k ≠ 23)) k hk

theorem recSpan1Mask_bit {k : Nat} (hk : k < 64) : recSpan1Mask.getLsbD k = decide (k ≤ 15) :=
  (by decide : ∀ k < 64, recSpan1Mask.getLsbD k = decide (k ≤ 15)) k hk

/-- A free word under a mask shows the word's own bits where the mask has a 1, and 0 elsewhere. -/
theorem getLsbD_masked {v m : Word} {k : Nat} {p : Prop} [Decidable p] (hm : m.getLsbD k = decide p) :
    (v &&& m).getLsbD k = if p then v.getLsbD k else false := by
  rw [BitVec.getLsbD_and, hm]
  by_cases hp : p <;> simp [hp]

/-- Settles O32: BUSY = 1 refuses the three writable registers, and a read shows the free word under its mask. -/
theorem busyLocksTheBlock : Obligations.BusyLocksTheBlock := by
  unfold Obligations.BusyLocksTheBlock
  refine ⟨fun s o v hb ho => ?_, fun s o r hb h8 hr => readsFreely_of_busy hb r hr h8, fun s o hb ho => ?_,
    fun s hb => ⟨_, readsFreely_of_busy hb .status rfl rfl, fun k hk => ?_⟩,
    fun s hb => ⟨_, readsFreely_of_busy hb .recInfo rfl rfl, fun k hk => getLsbD_masked (recInfoMask_bit hk)⟩,
    fun s hb => ⟨_, readsFreely_of_busy hb .recSpan1 rfl rfl, fun k hk => getLsbD_masked (recSpan1Mask_bit hk)⟩,
    fun s hb => ⟨readsFreely_of_busy hb .ctrl rfl rfl, readsFreely_of_busy hb .base rfl rfl,
      readsFreely_of_busy hb .len rfl rfl,
      fun o h1 h2 h8 => readsFreely_of_busy hb .reserved (portRegAt_reserved h1 h2) h8⟩⟩
  · rcases ho with rfl | rfl | rfl
    · rw [issue_ctrl]
      exact writeCtrl_busy (s := { s with host := [] }) hb v
    · rw [issue_base]
      exact writeBase_locked (s := { s with host := [] }) (configLocked_of_busy hb) v
    · rw [issue_len]
      exact writeLen_locked (s := { s with host := [] }) (configLocked_of_busy hb) v
  · rcases ho with rfl | rfl | rfl | rfl
    · exact readsFreely_of_busy hb .cur rfl rfl
    · exact readsFreely_of_busy hb .recAddr rfl rfl
    · exact readsFreely_of_busy hb .recD rfl rfl
    · exact readsFreely_of_busy hb .recSpan0 rfl rfl
  · rw [regValueBusy, BitVec.getLsbD_or, getLsbD_masked (statusMask_bit hk)]
    by_cases h0 : k = 0
    · subst h0; simp
    · have h1 : (1 : Word).getLsbD k = false := by simp [BitVec.getLsbD_one, h0]
      rw [h1, Bool.or_false, if_neg h0]

/-! ### Reset -/

theorem statusWord_resetBlock (s : State) : statusWord (resetBlock s) = 0 := by
  simp [statusWord, exhausted, phaseCode]

theorem statusWord_resetWith (m : Word) : statusWord (State.resetWith m) = 0 := by
  simp [statusWord, exhausted, phaseCode]

theorem cleared_cells (k : Fin 10) : Record.cleared.span[k.val] = 0 := by revert k; decide

theorem issue_reset (s : State) : issue .reset s = .next (resetBlock { s with host := [] }) := rfl

theorem resetBlock_resetWith (m : Word) : resetBlock { State.resetWith m with host := [] } = State.resetWith m := rfl

/-- Settles O33: the reset input builds the reset state around BUF. -/
theorem resetGivesResetValues : Obligations.ResetGivesResetValues := by
  unfold Obligations.ResetGivesResetValues
  intro s
  refine ⟨_, issue_reset s, rfl, rfl, rfl, rfl, rfl, rfl, rfl, rfl, rfl, rfl, cleared_cells, rfl, rfl, rfl, rfl, rfl,
    rfl, rfl, rfl, rfl, rfl, statusWord_resetBlock _, fun a => rfl⟩

/-- Settles O34: the reset state is fresh, and the reset input leads from it to itself. -/
theorem resetStateHasInvariants : Obligations.ResetStateHasInvariants := by
  unfold Obligations.ResetStateHasInvariants
  have all : ∀ m : Word, (State.resetWith m).inv ∧ issue .reset (State.resetWith m) = .next (State.resetWith m) ∧
      statusWord (State.resetWith m) = 0 := fun m =>
    ⟨inv_resetWith m, by rw [issue_reset, resetBlock_resetWith], statusWord_resetWith m⟩
  obtain ⟨hinv, hreset, hstatus⟩ := all Config.maxLen
  exact ⟨hinv, hreset, hstatus, all⟩

end Sys2Proof.Machine

/-! Proofs of O16 and O36 to O39. -/

namespace Sys2Proof.Machine

open Sys2Proof.Claims

/-! ### The canonical form of the buffer (R60) -/

theorem Memory.wfFrom_cons {lo a : Nat} {b : Byte} {m : Memory} :
    Memory.wfFrom lo ((a, b) :: m) = true ↔
      lo ≤ a ∧ a < 2 ^ 64 ∧ b ≠ Memory.unlisted ∧ Memory.wfFrom (a + 1) m = true := by
  simp [Memory.wfFrom, and_assoc]

@[simp] theorem Memory.read_cons_self (a : Nat) (b : Byte) (m : Memory) : Memory.read ((a, b) :: m) a = b := if_pos rfl

theorem Memory.read_cons_ne {a i : Nat} (h : i ≠ a) (b : Byte) (m : Memory) :
    Memory.read ((a, b) :: m) i = m.read i := if_neg h

theorem Memory.le_of_read_ne {lo i : Nat} {m : Memory} (h : Memory.wfFrom lo m = true)
    (hi : m.read i ≠ Memory.unlisted) : lo ≤ i :=
  Nat.le_of_not_lt fun hlt => hi (Memory.read_below h hlt)

/-- A canonical buffer that reads as unlisted everywhere has no cell. -/
theorem Memory.eq_nil_of_read {lo : Nat} {m : Memory} (h : Memory.wfFrom lo m = true)
    (hr : ∀ i, m.read i = Memory.unlisted) : m = [] := by
  cases m with
  | nil => rfl
  | cons c m =>
    obtain ⟨a, b⟩ := c
    obtain ⟨-, -, hb, -⟩ := Memory.wfFrom_cons.mp h
    exact absurd (by simpa using hr a) hb

/-- The first cell of a canonical buffer stands at the lowest index that does not read as unlisted, so no other canonical
buffer with the same reads begins above it. -/
theorem Memory.head_le_of_read {lo lo' a a' : Nat} {b b' : Byte} {m m' : Memory}
    (h : Memory.wfFrom lo ((a, b) :: m) = true) (h' : Memory.wfFrom lo' ((a', b') :: m') = true)
    (hr : Memory.read ((a, b) :: m) a = Memory.read ((a', b') :: m') a) : a' ≤ a := by
  obtain ⟨-, -, hb, -⟩ := Memory.wfFrom_cons.mp h
  obtain ⟨-, ha', hb', hm'⟩ := Memory.wfFrom_cons.mp h'
  refine Memory.le_of_read_ne (Memory.wfFrom_cons.mpr ⟨le_refl a', ha', hb', hm'⟩) ?_
  rw [← hr, Memory.read_cons_self]
  exact hb

/-- Canonical buffers are extensional: the first cells agree, and below the second ones the tails read as unlisted. -/
theorem Memory.ext_of_read {lo lo' : Nat} {m m' : Memory} (h : Memory.wfFrom lo m = true)
    (h' : Memory.wfFrom lo' m' = true) (hr : ∀ i, m.read i = m'.read i) : m = m' := by
  induction m generalizing lo lo' m' with
  | nil => exact (Memory.eq_nil_of_read h' fun i => (hr i).symm).symm
  | cons c m ih =>
    cases m' with
    | nil => exact Memory.eq_nil_of_read h hr
    | cons c' m' =>
      obtain ⟨a, b⟩ := c
      obtain ⟨a', b'⟩ := c'
      obtain rfl : a = a' :=
        Nat.le_antisymm (Memory.head_le_of_read h' h (hr a').symm) (Memory.head_le_of_read h h' (hr a))
      obtain rfl : b = b' := by simpa using hr a
      obtain ⟨-, -, -, hm⟩ := Memory.wfFrom_cons.mp h
      obtain ⟨-, -, -, hm'⟩ := Memory.wfFrom_cons.mp h'
      refine congrArg _ (ih hm hm' fun i => ?_)
      by_cases hi : i = a
      · rw [Memory.read_below hm (by omega), Memory.read_below hm' (by omega)]
      · simpa only [Memory.read_cons_ne hi] using hr i

/-- Settles O37: both buffers are canonical from index 0 on. -/
theorem equalBuffersAreEqualData : Obligations.EqualBuffersAreEqualData :=
  fun _ _ h h' hr => Memory.ext_of_read h h' hr

/-- Settles O36, by what one write does to each read of a canonical buffer. -/
theorem bufferReadAfterWrite : Obligations.BufferReadAfterWrite := by
  unfold Obligations.BufferReadAfterWrite
  intro m i b h hi
  refine ⟨Memory.wf_write h hi b, ?_, fun j hj => ?_⟩
  · rw [Memory.read_write h, if_pos rfl]
  · rw [Memory.read_write h, if_neg hj]

/-! ### The host's writes to the buffer (R70, R71) -/

theorem issue_bufWrite (s : State) (i : Word) (b : Byte) :
    issue (.bufWrite i b) s = .next (bufWrite i b { s with host := [] }) := rfl

theorem engineByte_dirty {s : State} {i : Nat} (h : s.dirty.contains i = true) (k : Config.ReadKind) :
    engineByte s k i = Config.freeByte s.draws k i := if_pos h

theorem contains_dirty_bufWrite (s : State) (i : Word) (b : Byte) (j : Nat) :
    (bufWrite i b s).dirty.contains j = ((streaming s && j == i.toNat) || s.dirty.contains j) := by
  rw [bufWrite_dirty]
  cases streaming s with
  | true => rw [if_pos rfl, contains_insertIndex, Bool.true_and]
  | false => rw [if_neg Bool.false_ne_true, Bool.false_and, Bool.false_or]

/-- R71: the written index is dirty from now on. -/
theorem engineByte_bufWrite_streaming {s : State} (hst : streaming s = true) (i : Word) (b : Byte)
    (k : Config.ReadKind) : engineByte (bufWrite i b s) k i.toNat = Config.freeByte s.draws k i.toNat := by
  refine engineByte_dirty ?_ k
  rw [contains_dirty_bufWrite, hst, BEq.rfl, Bool.true_and, Bool.true_or]

theorem engineByte_bufWrite_clean {s : State} (hw : s.buf.wf = true) (hn : streaming s = false) (hd : s.dirty = [])
    (i : Word) (b : Byte) (k : Config.ReadKind) : engineByte (bufWrite i b s) k i.toNat = b := by
  have hd' : (bufWrite i b s).dirty = [] := by simp [hn, hd]
  rw [engineByte_clean hd', bufWrite_buf, Memory.read_write hw, if_pos rfl]

theorem engineByte_bufWrite_ne {s : State} (hw : s.buf.wf = true) (i : Word) (b : Byte) (k : Config.ReadKind) {j : Nat}
    (hj : j ≠ i.toNat) : engineByte (bufWrite i b s) k j = engineByte s k j := by
  have hdirty : (bufWrite i b s).dirty.contains j = s.dirty.contains j := by
    rw [contains_dirty_bufWrite, beq_false_of_ne hj, Bool.and_false, Bool.false_or]
  have hread : (bufWrite i b s).buf.read j = s.buf.read j := by rw [bufWrite_buf, Memory.read_write hw, if_neg hj]
  rw [engineByte, engineByte, hdirty, hread, bufWrite_draws]

/-- Settles O38: the write stores the byte and, while a stream runs, marks its index; the registers are no part of BUF. -/
theorem hostWriteDuringStreamIsFree : Obligations.HostWriteDuringStreamIsFree := by
  unfold Obligations.HostWriteDuringStreamIsFree
  intro s i b hw
  exact ⟨_, issue_bufWrite s i b,
    fun hst => engineByte_bufWrite_streaming (s := { s with host := [] }) hst i b,
    fun hn hd => engineByte_bufWrite_clean (s := { s with host := [] }) hw hn hd i b,
    fun k j hj => engineByte_bufWrite_ne (s := { s with host := [] }) hw i b k hj, rfl, rfl, rfl, rfl⟩

/-- R76: a step leaves BUF alone unless it is the host's write, and MAX_LEN always. -/
theorem step_buf_maxLen {s t : State} (h : step s = .next t) :
    t.maxLen = s.maxLen ∧
    (t.buf = s.buf ∨ ∃ i b hs, s.host = .bufWrite i b :: hs ∧ t.buf = s.buf.write i.toNat b) := by
  cases step_cases h with
  | bufWrite i b hs hh ht => subst ht; exact ⟨rfl, .inr ⟨i, b, hs, hh, rfl⟩⟩
  | decode v hs hh hb h0 h1 hst ht =>
    have hrest := (decodeStep_cases ht).1
    exact ⟨hrest.maxLen, .inl hrest.buf⟩
  | idle hh ht => subst ht; exact ⟨rfl, .inl rfl⟩
  | reset hs hh ht => subst ht; exact ⟨rfl, .inl rfl⟩
  | read o w hs v d hh ht => subst ht; exact ⟨rfl, .inl rfl⟩
  | ignored o v hs hh ht => subst ht; exact ⟨rfl, .inl rfl⟩
  | refused o v hs hh ht => subst ht; exact ⟨rfl, .inl rfl⟩
  | setBase v hs hh hb hn ht => subst ht; exact ⟨rfl, .inl rfl⟩
  | setLen v hs hh hb hn ht => subst ht; exact ⟨rfl, .inl rfl⟩
  | start v hs hh hb h0 hl ht => subst ht; exact ⟨rfl, .inl rfl⟩

/-- Settles O39: the one step that changes BUF is one write of it. -/
theorem onlyTheHostWritesTheBuffer : Obligations.OnlyTheHostWritesTheBuffer := by
  unfold Obligations.OnlyTheHostWritesTheBuffer
  intro s t hw h
  obtain ⟨hmax, hbuf | ⟨i, b, hs, hh, hbuf⟩⟩ := step_buf_maxLen h
  · exact ⟨hmax, fun a hne => absurd (by rw [hbuf]) hne⟩
  · refine ⟨hmax, fun a hne => ?_⟩
    rw [hbuf, Memory.read_write hw] at hne ⊢
    by_cases ha : a = i.toNat
    · exact ⟨i, b, hs, hh, ha, if_pos ha⟩
    · exact absurd (if_neg ha) hne

/-! ### A STEP and the decoder (R112, R118) -/

/-- What an accepted byte sequence looks like: its first byte's length is there. -/
theorem decode_ok {bs rest : List Byte} {i : Instr} (h : decode bs = .ok (i, rest)) :
    ∃ b0 tail, bs = b0 :: tail ∧ lengthOf b0 ≤ tail.length + 1 ∧ i = decodeFirst b0 (tail.take (lengthOf b0 - 1)) := by
  cases bs with
  | nil => cases h
  | cons b0 tail =>
    rw [decode] at h
    split at h
    case isTrue => cases h
    case isFalse hlen => cases h; exact ⟨b0, tail, rfl, Nat.le_of_not_lt hlen, rfl⟩

/-- What a sequence that is too short looks like: the decoder reports the two lengths. -/
theorem decode_truncated {bs : List Byte} {need got : Nat} (h : decode bs = .error (.truncated need got)) :
    ∃ b0 tail, bs = b0 :: tail ∧ tail.length + 1 < lengthOf b0 ∧ need = lengthOf b0 ∧ got = tail.length + 1 := by
  cases bs with
  | nil => cases h
  | cons b0 tail =>
    rw [decode] at h
    split at h
    case isTrue hlt => cases h; exact ⟨b0, tail, rfl, hlt, rfl, rfl⟩
    case isFalse => cases h

/-- The span a step consumes is the head of the stream's bytes, as long as its first byte asks for. -/
theorem fetchSpan_of_streamFrom {s : State} {c : Nat} {b0 : Byte} {tail : List Byte}
    (h : streamFrom s c = b0 :: tail) : fetchSpan s c = b0 :: tail.take (lengthOf b0 - 1) := by
  have hc : c < s.len.toNat := by
    have hlen := congrArg List.length h
    rw [streamFrom, length_readBytes, remaining, List.length_cons] at hlen
    omega
  have hb0 : engineByte s .decode c = b0 := by
    obtain ⟨n, hn⟩ : ∃ n, remaining s c = n + 1 := ⟨remaining s c - 1, by unfold remaining; omega⟩
    rw [streamFrom, hn] at h
    exact (List.cons.inj h).1
  obtain ⟨n, hn⟩ : ∃ n, lengthOf b0 = n + 1 := ⟨_, (Nat.sub_add_cancel (lengthOf_pos b0)).symm⟩
  calc fetchSpan s c = (streamFrom s c).take (lengthOf b0) := by rw [fetchSpan_eq s c hc, hb0, streamFrom, take_readBytes]
    _ = b0 :: tail.take (lengthOf b0 - 1) := by rw [h, hn]; rfl

/-- The instruction of a STEP runs with CUR at its first byte, `z` bytes on. -/
theorem beginStep_eq_atInstruction (s : State) (hs : List HostAction) (z : Nat) :
    beginStep (s.cur.toNat + z) { s with host := hs } = atInstruction s hs z := by
  simp [beginStep, setCur, atInstruction, BitVec.ofNat_add]

/-- A STEP of a running stream runs the instruction that the bytes from its first byte on begin with, whole or not. -/
theorem step_runs_decodeFirst {s : State} {hs : List HostAction} {z : Nat} {b0 : Byte} {tail : List Byte}
    (hh : s.host = HostAction.stepCmd :: hs) (hb : s.busy = false) (hst : streaming s = true)
    (hz : firstByteIndex s = s.cur.toNat + z) (h : streamFrom s (s.cur.toNat + z) = b0 :: tail) :
    step s = exec (decodeFirst b0 (tail.take (lengthOf b0 - 1))) (atInstruction s hs z) := by
  rw [step_of_streaming s hs hh hb hst, ← beginStep_eq_atInstruction, decodeStep]
  simp only [firstByteIndex_host, fetchSpan_host, hz, fetchSpan_of_streamFrom h]

/-- Settles O16: in RUN the first byte stands at CUR, and what the decoder makes of a byte sequence that is too short
encodes to one that begins with it. -/
theorem stepRunsDecodedInstruction : Obligations.StepRunsDecodedInstruction := by
  unfold Obligations.StepRunsDecodedInstruction
  refine ⟨fun s hs i rest hh hb hp hd => ?_, fun s hs need got hh hb hp hd => ?_⟩
  · obtain ⟨b0, tail, hbs, -, rfl⟩ := decode_ok hd
    exact step_runs_decodeFirst (z := 0) hh hb (is_streaming (.inr hp)) (firstByteIndex_run hp) hbs
  · obtain ⟨b0, tail, hbs, hlt, rfl, rfl⟩ := decode_truncated hd
    have hstep := step_runs_decodeFirst (z := 0) hh hb (is_streaming (.inr hp)) (firstByteIndex_run hp) hbs
    rw [List.take_of_length_le (by omega)] at hstep
    obtain ⟨hwf, hlen, htake⟩ := decodeFirst_encode b0 tail (by omega)
    exact ⟨_, hwf, hlen, htake.trans hbs.symm, hstep⟩

end Sys2Proof.Machine

/-! Proofs of O1, O2, O3 and O5. -/

namespace Sys2Proof

/-! ### The decoder by how many bytes are there (R96, R118) -/

theorem decode_of_length_le {b0 : Byte} {tail : List Byte} (h : lengthOf b0 ≤ tail.length + 1) :
    decode (b0 :: tail) = .ok (decodeFirst b0 (tail.take (lengthOf b0 - 1)), tail.drop (lengthOf b0 - 1)) := by
  rw [decode, if_neg (Nat.not_lt.mpr h)]

theorem decode_of_length_lt {b0 : Byte} {tail : List Byte} (h : tail.length + 1 < lengthOf b0) :
    decode (b0 :: tail) = .error (.truncated (lengthOf b0) (tail.length + 1)) := by
  rw [decode, if_pos h]

/-- An instruction all of whose bytes were read encodes to exactly these. -/
theorem encode_decodeFirst {b0 : Byte} {tail : List Byte} (h : tail.length + 1 = lengthOf b0) :
    encode (decodeFirst b0 tail) = b0 :: tail := by
  obtain ⟨-, hlen, htake⟩ := decodeFirst_encode b0 tail h.le
  rwa [List.take_of_length_le (hlen.trans h.symm).le] at htake

/-- What the decoder takes from a long enough sequence is as long as the first byte asks for. -/
theorem length_take_lengthOf {b0 : Byte} {tail : List Byte} (h : lengthOf b0 ≤ tail.length + 1) :
    (tail.take (lengthOf b0 - 1)).length + 1 = lengthOf b0 := by
  have hpos := lengthOf_pos b0
  rw [List.length_take]
  omega

/-! ### From the instruction to its bytes and back -/

/-- An invalid first byte reaches the decoder's last arm (R220, R221). -/
theorem decodeFirst_of_invalid {b0 : Byte} (h : validFirstBytes.contains b0 = false) (tail : List Byte) :
    decodeFirst b0 tail = .quad b0 (BitVec.ofNat 56 (leNat (tail.take 7))) := by
  simp only [decodeFirst]
  split
  case h_31 => rfl
  all_goals
    rename_i hb
    obtain rfl := eq_of_toNat hb
    exact absurd h (by decide)

@[simp] theorem take_leBytes_self (n v : Nat) : (leBytes n v).take n = leBytes n v :=
  List.take_of_length_le (length_leBytes n v).le

theorem ofNat_leNat_leBytes_slot (slot : BitVec 56) : BitVec.ofNat 56 (leNat (leBytes 7 slot.toNat)) = slot := by
  have h : slot.toNat < 256 ^ 7 := slot.isLt
  rw [leNat_leBytes, Nat.mod_eq_of_lt h, BitVec.ofNat_toNat, BitVec.setWidth_eq]

/-- The encoding of a well-formed instruction is a first byte and as many more as that byte asks for, and the decoder's
arm for that byte reads the instruction's fields from them: one case for each of the five layouts (R88). -/
theorem encode_eq_cons {i : Instr} (hw : i.wellFormed = true) :
    ∃ b0 tail, encode i = b0 :: tail ∧ tail.length + 1 = lengthOf b0 ∧ decodeFirst b0 tail = i := by
  cases i with
  | halt | nop | ret => exact ⟨_, _, rfl, rfl, rfl⟩
  | rrmovq ra rb | cmovle ra rb | cmovl ra rb | cmove ra rb | cmovne ra rb | cmovge ra rb | cmovg ra rb
  | addq ra rb | subq ra rb | andq ra rb | xorq ra rb | op4 ra rb | op5 ra rb | op6 ra rb
  | pushq ra rb | popq ra rb =>
    exact ⟨_, _, rfl, rfl, by simp [decodeFirst]⟩
  | irmovq ra rb d | rmmovq ra rb d | mrmovq ra rb d =>
    exact ⟨_, _, rfl, rfl, by simp [decodeFirst, le_leBytes_toNat]⟩
  | jmp d | jle d | jl d | je d | jne d | jge d | jg d | call d =>
    exact ⟨_, _, rfl, rfl, by simp [decodeFirst, le_leBytes_toNat]⟩
  | quad b0 slot =>
    have hinv : validFirstBytes.contains b0 = false := by simpa [Instr.wellFormed] using hw
    obtain ⟨_, _, hcons, hlen, -⟩ := Laws.EncodeShape.quad b0 slot hw
    cases hcons
    refine ⟨_, _, rfl, hlen, ?_⟩
    rw [decodeFirst_of_invalid hinv, take_leBytes_self, ofNat_leNat_leBytes_slot]

/-- Settles O1: the first byte's length parts the encoding from what follows it. -/
theorem decodeOfEncodeGivesInstrBack : Obligations.DecodeOfEncodeGivesInstrBack := by
  unfold Obligations.DecodeOfEncodeGivesInstrBack
  intro i rest hw
  obtain ⟨b0, tail, hcons, hlen, hdec⟩ := encode_eq_cons hw
  have hle : lengthOf b0 ≤ (tail ++ rest).length + 1 := by rw [List.length_append]; omega
  have htail : lengthOf b0 - 1 = tail.length := by omega
  rw [hcons, List.cons_append, decode_of_length_le hle, htail, List.take_left, List.drop_left, hdec]

/-- Settles O2: the bytes taken encode back to themselves, and the rest is what was not taken. -/
theorem encodeOfDecodeGivesBytesBack : Obligations.EncodeOfDecodeGivesBytesBack := by
  unfold Obligations.EncodeOfDecodeGivesBytesBack
  intro bs rest i h
  obtain ⟨b0, tail, rfl, hle, rfl⟩ := Machine.decode_ok h
  have hlen := length_take_lengthOf hle
  have hrest : tail.drop (lengthOf b0 - 1) = rest := by rw [decode_of_length_le hle] at h; cases h; rfl
  refine ⟨(decodeFirst_encode b0 _ hlen.le).1, ?_⟩
  rw [encode_decodeFirst hlen, ← hrest, List.cons_append, List.take_append_drop]

/-! ### The length (R89, R96) -/

/-- The length of a valid first byte tells its class: the classes with neither field, with a register byte, with a D
field, and with both. -/
theorem lengthOf_valid_iff_class {b0 : Byte} (hv : validByte b0 = true) :
    (lengthOf b0 = 1 ↔ (hiNibble b0).toNat ∈ [0x0, 0x1, 0x9]) ∧
    (lengthOf b0 = 2 ↔ (hiNibble b0).toNat ∈ [0x2, 0x6, 0xA, 0xB]) ∧
    (lengthOf b0 = 9 ↔ (hiNibble b0).toNat ∈ [0x7, 0x8]) ∧
    (lengthOf b0 = 10 ↔ (hiNibble b0).toNat ∈ [0x3, 0x4, 0x5]) := by
  revert b0; decide

theorem lengthOf_invalid {b0 : Byte} (hv : validByte b0 = false) : lengthOf b0 = 8 := if_neg (Bool.eq_false_iff.mp hv)

/-- Settles O5: the decoder compares the bytes that are there with the first byte's length, and looks at no other byte
to do so. -/
theorem firstByteAloneFixesLength : Obligations.FirstByteAloneFixesLength := by
  unfold Obligations.FirstByteAloneFixesLength
  refine ⟨fun b0 rest hle => ?_, fun _ _ => decode_of_length_lt, fun _ => lengthOf_valid_iff_class,
    fun _ => lengthOf_invalid⟩
  have henc := encode_decodeFirst (length_take_lengthOf hle)
  refine ⟨_, decode_of_length_le hle, ?_, ?_⟩
  · rw [henc, List.length_cons, length_take_lengthOf hle]
  · rw [henc, List.head?_cons]

/-- Settles O3: each word is run through the decoder. -/
theorem writtenWordsDecodeToTheirInstr : Obligations.WrittenWordsDecodeToTheirInstr := by
  unfold Obligations.WrittenWordsDecodeToTheirInstr
  exact ⟨rfl, rfl, rfl, rfl, rfl, rfl, rfl⟩

end Sys2Proof

/-! Proofs of O17, O18, O20 to O24: one START or STEP. -/

namespace Sys2Proof.Machine

open Sys2Proof.Claims

/-! ### The commands (R110, R111) -/

theorem issue_stepCmd {s : State} (hb : s.busy = false) :
    issue HostAction.stepCmd s = stepCommand { s with host := [] } := issue_ctrl_step hb rfl rfl

theorem issue_stepCmd_streaming {s : State} (hb : s.busy = false) (hst : streaming s = true) :
    issue HostAction.stepCmd s = decodeStep { s with host := [] } := by
  rw [issue_stepCmd hb, stepCommand]; exact if_pos hst

/-- Settles O24: PHASE alone decides whether STEP is refused. -/
theorem stepRefusedOutsideStream : Obligations.StepRefusedOutsideStream := by
  unfold Obligations.StepRefusedOutsideStream
  refine ⟨fun s hb hp => ?_, fun s hb hp => issue_stepCmd_streaming hb (is_streaming hp)⟩
  rw [issue_stepCmd hb]
  exact stepCommand_refused (s := { s with host := [] }) (not_streaming hp)

/-- Settles O23: an accepted START is `startStream`, which sets each field by itself. -/
theorem startBeginsStream : Obligations.StartBeginsStream := by
  unfold Obligations.StartBeginsStream
  exact ⟨fun s hb hl => ⟨_, issue_start s hb hl, rfl, rfl, rfl, rfl, rfl, rfl, rfl, rfl, rfl, rfl, hb, fun _ => rfl⟩,
    issue_start_refused⟩

/-! ### Where the first byte stands (R113, R114) -/

theorem firstByteIndex_of_zeros {s : State} {z : Nat} (hp : s.phase = .lead) (hz : s.cur.toNat + z ≤ s.len.toNat)
    (h0 : ∀ j, j < z → engineByte s .skip (s.cur.toNat + j) = 0)
    (h1 : s.cur.toNat + z < s.len.toNat → engineByte s .skip (s.cur.toNat + z) ≠ 0) :
    firstByteIndex s = s.cur.toNat + z := by
  rw [firstByteIndex, if_pos hp]
  exact skipZeros_unique s _ _ z (by unfold remaining; omega) h0 fun h => h1 (by unfold remaining at h; omega)

/-- Settles O17: the skip stops at the first byte that is not zero, and the instruction there runs. -/
theorem firstStepSkipsLeadingZeros : Obligations.FirstStepSkipsLeadingZeros := by
  unfold Obligations.FirstStepSkipsLeadingZeros
  intro s hs z i rest hh hb hp h0 hlt hne hd
  obtain ⟨b0, tail, hbs, -, rfl⟩ := decode_ok hd
  exact step_runs_decodeFirst hh hb (is_streaming (.inl hp)) (firstByteIndex_of_zeros hp hlt.le h0 fun _ => hne) hbs

theorem step_ends_stream {s : State} {hs : List HostAction} (hh : s.host = HostAction.stepCmd :: hs)
    (hb : s.busy = false) (hst : streaming s = true) (hend : firstByteIndex s = s.len.toNat) :
    step s = .next (endedStream s hs) := by
  have hend' : firstByteIndex { s with host := hs } = s.len.toNat := (firstByteIndex_host s hs).trans hend
  rw [step_of_streaming s hs hh hb hst, decodeStep_eos _ hend'.ge, hend']
  simp [endOfStream, beginStep, setCur, endedStream]

/-- Settles O18: in both cases the index of the first byte is LEN. -/
theorem stepEndsStreamWithoutByte : Obligations.StepEndsStreamWithoutByte := by
  unfold Obligations.StepEndsStreamWithoutByte
  refine ⟨fun s hs hh hb hp hc => ?_, fun s hs hh hb hp hc h0 => ?_⟩
  · exact step_ends_stream hh hb (is_streaming (.inr hp)) ((firstByteIndex_run hp).trans (congrArg _ hc))
  · have hadd : s.cur.toNat + (s.len.toNat - s.cur.toNat) = s.len.toNat := Nat.add_sub_cancel' hc
    have hend := firstByteIndex_of_zeros hp hadd.le (fun j hj => h0 _ (Nat.le_add_right _ _) (by omega))
      fun hlt => absurd hadd hlt.ne
    exact step_ends_stream hh hb (is_streaming (.inl hp)) (hend.trans hadd)

/-! ### What a STEP reads and reports (R118, R120, R122, R127) -/

/-- Settles O20: the index of the first byte, the span and the record are functions of the bytes from CUR to LEN. -/
theorem decodeStepIsDetermined : Obligations.DecodeStepIsDetermined := by
  unfold Obligations.DecodeStepIsDetermined
  rintro s s' ⟨hp, hc, hb, hl, hbytes⟩
  have hidx := firstByteIndex_congr s s' hp hc hl (hbytes .skip)
  by_cases hlt : firstByteIndex s < s.len.toNat
  · have hlo := le_firstByteIndex s
    have hspan := fetchSpan_congr s s' (firstByteIndex s) hl fun j hj => hbytes .decode j (hlo.trans hj)
    have hrem : remaining s (firstByteIndex s) = remaining s' (firstByteIndex s) := by rw [remaining, remaining, hl]
    have hs' := decodeStep_record s' _ hidx.symm (hl ▸ hlt)
    rw [← hbytes .decode _ hlo hlt, ← hspan, ← hrem, ← hb] at hs'
    exact ⟨_, _, decodeStep_record s _ rfl hlt, hs', rfl, rfl, rfl, rfl, rfl, rfl, fun _ => rfl⟩
  · have hge : s.len.toNat ≤ firstByteIndex s := Nat.le_of_not_lt hlt
    have hge' : s'.len.toNat ≤ firstByteIndex s' := by rwa [← hidx, ← hl]
    exact ⟨_, _, decodeStep_eos s hge, decodeStep_eos s' hge', rfl,
      congrArg (BitVec.ofNat 64) hidx, rfl, rfl, rfl, rfl, nofun⟩

theorem Delivered.of_host {s t : State} {hs : List HostAction} {c : Nat} (h : Delivered { s with host := hs } t c) :
    Delivered s t c :=
  { h with record := h.record.trans (by rw [fetchSpan_host]; rfl) }

theorem Ended.of_host {s t : State} {hs : List HostAction} (h : Ended { s with host := hs } t) : Ended s t :=
  { h with
    noByte := (firstByteIndex_host s hs) ▸ h.noByte
    cur := h.cur.trans (congrArg _ (firstByteIndex_host s hs)) }

/-- Everything a STEP of a running stream can do. -/
theorem issue_stepCmd_cases {s t : State} (hb : s.busy = false) (hst : streaming s = true)
    (h : issue HostAction.stepCmd s = .next t) :
    SameRest { s with host := [] } t ∧ (Delivered s t (firstByteIndex s) ∨ Ended s t) := by
  rw [issue_stepCmd_streaming hb hst] at h
  obtain ⟨hrest, hd | ⟨hnb, hcur, hrec, hph, hrv, heos, htr, hinv⟩⟩ := decodeStep_cases h
  · exact ⟨hrest, .inl (firstByteIndex_host s [] ▸ hd.of_host)⟩
  · exact ⟨hrest, .inr (Ended.of_host ⟨hnb, hcur, hrec, hph, hrv, heos, htr, hinv⟩)⟩

/-- Settles O21: the stream holds a first byte or it does not; with one, validity and length are judged apart. -/
theorem stepReportsConditions : Obligations.StepReportsConditions := by
  unfold Obligations.StepReportsConditions
  intro s t hst hc hb h
  obtain ⟨hrest, hd | he⟩ := issue_stepCmd_cases hb hst h
  · have hvalid : t.record.valid = validByte (engineByte s .decode (firstByteIndex s)) := by rw [hd.record]; rfl
    refine ⟨hrest.cmdErr, fun heq => absurd heq hd.hi.ne,
      fun _ => ⟨hd.eos, hd.recValid, ?_, ?_, ?_, hd.trunc.symm, ?_⟩⟩
    · rw [hd.invalid, hvalid]
    · rw [hd.invalid, Bool.not_not]
    · rw [hd.trunc, hd.truncIff, ← decide_not, decide_eq_decide]; omega
    · rw [hd.phase, hd.trunc]
  · exact ⟨hrest.cmdErr, fun _ => ⟨he.eos, he.recValid, he.invalid, he.trunc, he.phase⟩,
      fun hlt => absurd he.noByte (Nat.not_le.mpr hlt)⟩

theorem spanBytes_recordOf (a : Word) (f : Fmt) (v c : Bool) {span : List Byte} (h : span.length ≤ 10) :
    spanBytes (recordOf a f v c span) = span := by
  have hlen : (BitVec.ofNat 4 span.length).toNat = span.length := by simp only [BitVec.toNat_ofNat]; omega
  simp only [spanBytes, recordOf, spanCells, hlen, Vector.toList_ofFn]
  apply List.ext_getElem
  · simp [h]
  · intro k h1 h2
    simp only [List.getElem_take, List.getElem_ofFn, List.getD_eq_getElem _ _ h2]

/-- R122: the record's bytes are those the engine read from the first byte on. -/
theorem Delivered.spanBytes_eq {s t : State} {c : Nat} (h : Delivered s t c) :
    spanBytes t.record = readBytes s c t.record.spanLen.toNat := by
  obtain ⟨rest, hspan, hlen⟩ := h.span
  rw [h.spanLen, h.record, spanBytes_recordOf _ _ _ _ (by rw [hspan]; exact hlen), fetchSpan_eq s c h.hi]
  rfl

theorem Delivered.cur_eq_add {s t : State} {c : Nat} (h : Delivered s t c) :
    t.cur.toNat = c + t.record.spanLen.toNat := by rw [h.cur, h.spanLen]

theorem Delivered.spanLen_pos {s t : State} {c : Nat} (h : Delivered s t c) : 1 ≤ t.record.spanLen.toNat := by
  have hpos := lengthOf_pos (engineByte s .decode c)
  have hlen := h.spanLen
  have hhi := h.hi
  omega

/-- R118: a record is truncated exactly when its span is shorter than its first byte asks for. -/
theorem Delivered.trunc_iff_short {s t : State} {c : Nat} (h : Delivered s t c) :
    t.record.trunc = true ↔ t.record.spanLen.toNat < lengthOf t.record.firstByte := by
  obtain ⟨-, -, hfirst⟩ := h.fits
  rw [h.truncIff, hfirst, h.spanLen, Bool.not_eq_true', decide_eq_false_iff_not]
  omega

theorem Delivered.spanLen_le {s t : State} {c : Nat} (h : Delivered s t c) :
    t.record.spanLen.toNat ≤ lengthOf t.record.firstByte := by
  obtain ⟨-, -, hfirst⟩ := h.fits
  rw [h.spanLen, hfirst]; exact Nat.min_le_left _ _

/-- Settles O22: without a record there is nothing to show; a delivered one spans the bytes CUR moved over. -/
theorem stepConsumesItsSpan : Obligations.StepConsumesItsSpan := by
  unfold Obligations.StepConsumesItsSpan
  intro s t hst hc hb h hrv
  obtain ⟨-, hd | he⟩ := issue_stepCmd_cases hb hst h
  · have haddr : t.record.addr = s.base + BitVec.ofNat 64 (firstByteIndex s) := by rw [hd.record]; rfl
    refine ⟨hd.cur_eq_add, hd.lo, hd.cur_le, haddr, fun htr => ?_, fun htr => ?_, hd.spanBytes_eq⟩
    · exact Nat.le_antisymm hd.spanLen_le (Nat.le_of_not_lt (mt hd.trunc_iff_short.mpr (Bool.eq_false_iff.mp htr)))
    · exact ⟨hd.spanLen_pos, hd.trunc_iff_short.mp htr⟩
  · exact absurd hrv (by simp [he.recValid])

end Sys2Proof.Machine

/-! Proof of O19: the decode step is the pseudocode of R112. Each step of the pseudocode is put as what it takes from
the stream; the four layouts and the recovery slot then give the span, and the fields of it, that `decodeStep`
delivers. -/

namespace Sys2Proof.Machine

/-! ### CUR as an index of the stream -/

theorem setCur_self (s : State) : setCur (BitVec.ofNat 64 s.cur.toNat) s = s := by
  rw [BitVec.ofNat_toNat, BitVec.setWidth_eq]; rfl

theorem toNat_ofNat_le {p : Nat} {w : Word} (h : p ≤ w.toNat) : (BitVec.ofNat 64 p).toNat = p := by
  have := w.isLt
  simp only [BitVec.toNat_ofNat]; omega

theorem remaining_eq_succ {s : State} {c : Nat} (h : c < s.len.toNat) : remaining s c = remaining s (c + 1) + 1 := by
  unfold remaining; omega

/-! ### The steps of the pseudocode (R112) -/

/-- Step 1: the loop stops where `skipZeros` does. -/
theorem algSkip_eq (n : Nat) (s : State) {p : Nat} (h : p + n ≤ s.len.toNat) :
    algSkip n (setCur (BitVec.ofNat 64 p) s) = setCur (BitVec.ofNat 64 (skipZeros s n p)) s := by
  induction n generalizing p with
  | zero => rfl
  | succ n ih =>
    have hp : (BitVec.ofNat 64 p).toNat = p := toNat_ofNat_le (w := s.len) (by omega)
    have hlt : BitVec.ofNat 64 p < s.len := by rw [BitVec.lt_def, hp]; omega
    rw [algSkip, skipZeros]
    simp only [setCur_cur, setCur_len, engineByte_setCur, hp, hlt, true_and]
    split
    · rw [setCur_setCur, show BitVec.ofNat 64 p + 1 = BitVec.ofNat 64 (p + 1) from (BitVec.ofNat_add p 1).symm]
      exact ih (by omega)
    · rfl

theorem alg_skip_loop {s : State} (hc : s.cur ≤ s.len) :
    (if s.phase = .lead then algSkip (s.len.toNat - s.cur.toNat) s else s) =
      setCur (BitVec.ofNat 64 (firstByteIndex s)) s := by
  have hroom : s.cur.toNat + (s.len.toNat - s.cur.toNat) ≤ s.len.toNat := (Nat.add_sub_cancel' hc).le
  unfold firstByteIndex
  split
  · have hskip := algSkip_eq _ s hroom
    rwa [setCur_self] at hskip
  · exact (setCur_self s).symm

/-- Take at an index: the bytes that are there, and whether they are all. -/
theorem algTake_at {s : State} {p : Nat} (hp : p ≤ s.len.toNat) (n : Nat) :
    algTake n (setCur (BitVec.ofNat 64 p) s) = (readBytes s p (min n (remaining s p)), decide (n ≤ remaining s p),
      setCur (BitVec.ofNat 64 (p + min n (remaining s p))) s) := by
  have hall : (min n (remaining s p) == n) = decide (n ≤ remaining s p) := by
    rw [Bool.eq_iff_iff, beq_iff_eq, decide_eq_true_eq]; omega
  simp only [algTake, setCur_cur, setCur_len, readBytes_setCur, setCur_setCur, toNat_ofNat_le hp, BitVec.ofNat_add]
  exact congrArg (fun b => (_, b, _)) hall

section
variable {icode : Nibble} {s : State} {p : Nat} (f : AlgFields)

theorem algRegByte_absent (h : hasReg icode = false) : algRegByte icode f s = (f, s) :=
  if_neg (Bool.eq_false_iff.mp h)

theorem algRegByte_missing (h : hasReg icode = true) (hp : p = s.len.toNat) :
    algRegByte icode f (setCur (BitVec.ofNat 64 p) s) =
      ({ f with complete := false }, setCur (BitVec.ofNat 64 p) s) := by
  have hrem : remaining s p = 0 := by unfold remaining; omega
  rw [algRegByte, if_pos h, algTake_at hp.le, hrem]
  rfl

theorem algRegByte_read (h : hasReg icode = true) (hp : p < s.len.toNat) :
    algRegByte icode f (setCur (BitVec.ofNat 64 p) s) =
      ({ f with
          span := f.span ++ [engineByte s .decode p], complete := true
          ra := hiNibble (engineByte s .decode p), rb := loNibble (engineByte s .decode p) },
        setCur (BitVec.ofNat 64 (p + 1)) s) := by
  rw [algRegByte, if_pos h, algTake_at hp.le, remaining_eq_succ hp]
  simp [readBytes]

theorem algDField_skipped (h : (hasD icode && f.complete) = false) : algDField icode f s = (f, s) :=
  if_neg (Bool.eq_false_iff.mp h)

theorem algDField_read (h : hasD icode = true) (hf : f.complete = true) (hp : p ≤ s.len.toNat) :
    algDField icode f (setCur (BitVec.ofNat 64 p) s) =
      ({ f with
          span := f.span ++ readBytes s p (min 8 (remaining s p)), complete := decide (8 ≤ remaining s p)
          d := le (readBytes s p (min 8 (remaining s p))) },
        setCur (BitVec.ofNat 64 (p + min 8 (remaining s p))) s) := by
  rw [algDField, h, hf, algTake_at hp]
  rfl

end

/-! ### The fields of each format (R88, R112 steps 4 to 6) -/

/-- The variables of the pseudocode as functions of the format and the span, as a record's fields are. -/
def fieldsOf (fmt : Fmt) (complete : Bool) (span : List Byte) : AlgFields where
  span := span
  ra := raOf fmt span
  rb := rbOf fmt span
  d := dOf fmt span
  complete := complete
  fmt := fmt

/-- The variables of the pseudocode after the first byte, before any field is read. -/
def firstByteFields (b0 : Byte) : AlgFields where
  span := [b0]
  ra := 0xF
  rb := 0xF
  d := 0
  complete := true
  fmt := .B

/-- The register codes of a missing register byte are 0xF (R123). -/
theorem hiNibble_ff : hiNibble 255#8 = 15#4 := rfl

theorem loNibble_ff : loNibble 255#8 = 15#4 := rfl

theorem algFormatOf_eq {b0 : Byte} (hv : validByte b0 = true) : algFormatOf (hiNibble b0) = formatOf b0 := by
  revert b0; decide

theorem algFields_of_valid {b0 : Byte} {s s1 s2 : State} {f1 f2 : AlgFields} (hv : validByte b0 = true)
    (hreg : algRegByte (hiNibble b0) (firstByteFields b0) s = (f1, s1))
    (hd : algDField (hiNibble b0) f1 s1 = (f2, s2)) :
    algFields b0 s = ({ f2 with fmt := formatOf b0 }, s2) := by
  unfold algFields
  rw [← algFormatOf_eq hv]
  unfold firstByteFields at hreg
  unfold validByte at hv
  simp only [hv, if_true, hreg, hd]

/-- What the pseudocode holds after steps 4 to 6 when the first byte asks for `m` bytes more. -/
def TakesFields (b0 : Byte) (s : State) (p m : Nat) : Prop :=
  algFields b0 (setCur (BitVec.ofNat 64 p) s) =
    (fieldsOf (formatOf b0) (decide (m ≤ remaining s p)) (b0 :: readBytes s p (min m (remaining s p))),
      setCur (BitVec.ofNat 64 (p + min m (remaining s p))) s)

section
variable {b0 : Byte} {s : State} {p : Nat}

theorem takesFields_B (hv : validByte b0 = true) (hr : hasReg (hiNibble b0) = false) (hd : hasD (hiNibble b0) = false) :
    TakesFields b0 s p 0 := by
  have hf : formatOf b0 = .B := by simp [formatOf, hv, hr, hd]
  unfold TakesFields
  rw [algFields_of_valid hv (algRegByte_absent _ hr) (algDField_skipped _ (by rw [hd, Bool.false_and])), hf]
  simp [fieldsOf, firstByteFields, raOf, rbOf, dOf, fmtHasReg, readBytes, Config.noReg]

theorem takesFields_BD (hv : validByte b0 = true) (hr : hasReg (hiNibble b0) = false) (hd : hasD (hiNibble b0) = true)
    (hp : p ≤ s.len.toNat) : TakesFields b0 s p 8 := by
  have hf : formatOf b0 = .BD := by simp [formatOf, hv, hr, hd]
  unfold TakesFields
  rw [algFields_of_valid hv (algRegByte_absent _ hr) (algDField_read _ hd rfl hp), hf]
  rfl

theorem takesFields_BR (hv : validByte b0 = true) (hr : hasReg (hiNibble b0) = true) (hd : hasD (hiNibble b0) = false)
    (hp : p ≤ s.len.toNat) : TakesFields b0 s p 1 := by
  have hf : formatOf b0 = .BR := by simp [formatOf, hv, hr, hd]
  have hskip : ∀ f : AlgFields, (hasD (hiNibble b0) && f.complete) = false := fun f => by rw [hd, Bool.false_and]
  unfold TakesFields
  rcases hp.eq_or_lt with heq | hlt
  · have hrem : remaining s p = 0 := by unfold remaining; omega
    rw [algFields_of_valid hv (algRegByte_missing _ hr heq) (algDField_skipped _ (hskip _)), hf, hrem]
    simp [fieldsOf, firstByteFields, raOf, rbOf, dOf, fmtHasReg, readBytes, hiNibble_ff, loNibble_ff]
  · rw [algFields_of_valid hv (algRegByte_read _ hr hlt) (algDField_skipped _ (hskip _)), hf, remaining_eq_succ hlt]
    simp [fieldsOf, firstByteFields, raOf, rbOf, dOf, fmtHasReg, readBytes]

theorem takesFields_BRD (hv : validByte b0 = true) (hr : hasReg (hiNibble b0) = true) (hd : hasD (hiNibble b0) = true)
    (hp : p ≤ s.len.toNat) : TakesFields b0 s p 9 := by
  have hf : formatOf b0 = .BRD := by simp [formatOf, hv, hr, hd]
  unfold TakesFields
  rcases hp.eq_or_lt with heq | hlt
  · have hrem : remaining s p = 0 := by unfold remaining; omega
    rw [algFields_of_valid hv (algRegByte_missing _ hr heq) (algDField_skipped _ (Bool.and_false _)), hf, hrem]
    simp [fieldsOf, firstByteFields, raOf, rbOf, dOf, fmtHasReg, readBytes, le, leNat, hiNibble_ff, loNibble_ff]
  · have hmin : min 9 (remaining s (p + 1) + 1) = min 8 (remaining s (p + 1)) + 1 := Nat.add_min_add_right 8 _ 1
    rw [algFields_of_valid hv (algRegByte_read _ hr hlt) (algDField_read _ hd rfl hlt), hf, remaining_eq_succ hlt, hmin]
    simp [fieldsOf, firstByteFields, raOf, rbOf, dOf, fmtHasReg, readBytes, Nat.add_assoc, Nat.add_comm 1]

theorem takesFields_INV (hv : validByte b0 = false) (hp : p ≤ s.len.toNat) : TakesFields b0 s p 7 := by
  have hf : formatOf b0 = .INV := by simp [formatOf, hv]
  unfold TakesFields
  rw [hf, algFields]
  unfold validByte at hv
  simp only [hv]
  rw [if_neg Bool.false_ne_true, algRecovery, algTake_at hp]
  rfl

end

/-- Steps 4 to 6 take what the first byte's length asks for (R96). -/
theorem takesFields_lengthOf {b0 : Byte} {s : State} {p : Nat} (hp : p ≤ s.len.toNat) :
    TakesFields b0 s p (lengthOf b0 - 1) := by
  cases hv : validByte b0 with
  | false => simpa [lengthOf, hv, Config.invSpan] using takesFields_INV hv hp
  | true =>
    cases hr : hasReg (hiNibble b0) with
    | false =>
      cases hd : hasD (hiNibble b0) with
      | false => simpa [lengthOf, hv, hr, hd] using takesFields_B hv hr hd
      | true => simpa [lengthOf, hv, hr, hd] using takesFields_BD hv hr hd hp
    | true =>
      cases hd : hasD (hiNibble b0) with
      | false => simpa [lengthOf, hv, hr, hd] using takesFields_BR hv hr hd hp
      | true => simpa [lengthOf, hv, hr, hd] using takesFields_BRD hv hr hd hp

/-! ### The whole step -/

theorem algFields_eq {s : State} {c : Nat} (h : c < s.len.toNat) :
    algFields (engineByte s .decode c) (setCur (BitVec.ofNat 64 (c + 1)) s) =
      (fieldsOf (formatOf (engineByte s .decode c)) (decide (lengthOf (engineByte s .decode c) ≤ remaining s c))
          (fetchSpan s c),
        setCur (BitVec.ofNat 64 (c + min (lengthOf (engineByte s .decode c)) (remaining s c))) s) := by
  obtain ⟨m, hm⟩ : ∃ m, lengthOf (engineByte s .decode c) = m + 1 :=
    ⟨_, (Nat.sub_add_cancel (lengthOf_pos _)).symm⟩
  have htakes : TakesFields (engineByte s .decode c) s (c + 1) (lengthOf (engineByte s .decode c) - 1) :=
    takesFields_lengthOf h
  rw [fetchSpan_eq s c h, remaining_eq_succ h, hm, Nat.add_min_add_right]
  rw [TakesFields, hm] at htakes
  rw [htakes, Nat.add_assoc, Nat.add_comm 1]
  simp [readBytes]

/-- Settles O19: both leave the same state when the skip finds no byte, and otherwise the same fields of the same
span. -/
theorem decodeStepIsThePseudocode : Obligations.DecodeStepIsThePseudocode := by
  unfold Obligations.DecodeStepIsThePseudocode
  intro s _ hc
  obtain ⟨-, hle⟩ := firstByteIndex_bounds s hc
  generalize hi : firstByteIndex s = c at hle
  have hskip := alg_skip_loop hc
  rw [hi] at hskip
  rcases hle.eq_or_lt with heq | hlt
  · have hcur : BitVec.ofNat 64 c = s.len := by rw [heq, BitVec.ofNat_toNat, BitVec.setWidth_eq]
    rw [decodeStep_eos s (hi.trans heq).ge, hi, beginStep, hcur, algDecodeStep]
    simp only [hskip, setCur_cur, setCur_len, hcur, if_true]
    rfl
  · have hcur : BitVec.ofNat 64 c ≠ s.len := fun h => hlt.ne (by rw [← h, toNat_ofNat_le hlt.le])
    have htake : algTake 1 (setCur (BitVec.ofNat 64 c) s) =
        ([engineByte s .decode c], true, setCur (BitVec.ofNat 64 (c + 1)) s) := by
      rw [algTake_at hlt.le, remaining_eq_succ hlt]; simp [readBytes]
    rw [decodeStep_record s c hi hlt, algDecodeStep]
    simp only [hskip, setCur_cur, setCur_len, hcur, if_false, htake, algFields_eq hlt]
    obtain ⟨rest, hspan, -⟩ := fetchSpan_cons s c hlt
    rw [hspan, BitVec.ofNat_add]
    cases decide (lengthOf (engineByte s .decode c) ≤ remaining s c) <;> rfl

end Sys2Proof.Machine

/-! Proofs of O47 to O49 and O52: the run of a stream (R124, R129). `StreamRun` is the host's loop as a relation, with
what each STEP did; every statement about a run is an induction over it. -/

namespace Sys2Proof.Machine

open Sys2Proof.Claims

/-! ### A stream that has begun -/

/-- What a START leaves and every STEP keeps: no command in progress, no disturbed byte, CUR inside the stream. -/
structure Begun (s : State) : Prop where
  busy : s.busy = false
  dirty : s.dirty = []
  phase : s.phase ≠ .idle
  cur : s.cur ≤ s.len

theorem begun_startStream {s : State} (hb : s.busy = false) : Begun (startStream { s with host := [] }) :=
  ⟨hb, rfl, by simp, Nat.zero_le _⟩

theorem Begun.streaming {s : State} (h : Begun s) (hp : s.phase ≠ .exh) : streaming s = true := by
  have hidle := h.phase
  cases hph : s.phase with
  | lead => exact is_streaming (.inl hph)
  | run => exact is_streaming (.inr hph)
  | idle => exact absurd hph hidle
  | exh => exact absurd hph hp

theorem decodeStep_next (s : State) : ∃ t, decodeStep s = .next t := by
  by_cases h : firstByteIndex s < s.len.toNat
  · exact ⟨_, decodeStep_record s _ rfl h⟩
  · exact ⟨_, decodeStep_eos s (Nat.le_of_not_lt h)⟩

theorem Delivered.phase_exh {s t : State} {c : Nat} (h : Delivered s t c) (htr : t.record.trunc = true) :
    t.phase = .exh := by rw [h.phase, if_pos htr]

theorem Delivered.phase_run {s t : State} {c : Nat} (h : Delivered s t c) (htr : t.record.trunc = false) :
    t.phase = .run := by rw [h.phase, htr]; rfl

theorem Delivered.phase_cases {s t : State} {c : Nat} (h : Delivered s t c) : t.phase = .exh ∨ t.phase = .run := by
  cases htr : t.record.trunc with
  | true => exact .inl (h.phase_exh htr)
  | false => exact .inr (h.phase_run htr)

theorem Begun.next {s t : State} (h : Begun s) (hrest : SameRest { s with host := [] } t)
    (hcase : Delivered s t (firstByteIndex s) ∨ Ended s t) : Begun t := by
  refine ⟨hrest.busy.trans h.busy, hrest.dirty.trans h.dirty, ?_, ?_⟩
  · rcases hcase with hd | he
    · rcases hd.phase_cases with hph | hph <;> simp [hph]
    · simp [he.phase]
  · rw [hrest.len]
    rcases hcase with hd | he
    · exact hd.cur_le
    · exact he.cur_eq h.cur ▸ BitVec.le_refl _

/-- The STEP after which a run goes on or ends. -/
theorem Begun.step {s : State} (h : Begun s) (hp : s.phase ≠ .exh) :
    ∃ t, issue HostAction.stepCmd s = .next t ∧ Begun t ∧ SameRest { s with host := [] } t ∧
      (Delivered s t (firstByteIndex s) ∨ Ended s t) := by
  obtain ⟨t, ht⟩ := decodeStep_next { s with host := [] }
  have hissue := (issue_stepCmd_streaming h.busy (h.streaming hp)).trans ht
  obtain ⟨hrest, hcase⟩ := issue_stepCmd_cases h.busy (h.streaming hp) hissue
  exact ⟨t, hissue, h.next hrest hcase, hrest, hcase⟩

/-! ### The host's loop (R129) -/

theorem runStream_exhausted {s : State} (hp : s.phase = .exh) (n : Nat) : runStream n s = ([], s) := by
  cases n with
  | zero => rfl
  | succ n => exact if_pos hp

theorem runStream_record {s t : State} (hp : s.phase ≠ .exh) (ht : issue HostAction.stepCmd s = .next t)
    (hrv : t.recValid = true) (n : Nat) :
    runStream (n + 1) s = (t.record :: (runStream n t).1, (runStream n t).2) := by
  rw [runStream, if_neg hp, ht]
  simp only [hrv, if_true]
  rfl

theorem runStream_ended {s t : State} (hp : s.phase ≠ .exh) (ht : issue HostAction.stepCmd s = .next t)
    (he : Ended s t) (n : Nat) : runStream (n + 1) s = ([], t) := by
  rw [runStream, if_neg hp, ht]
  simp [he.recValid, runStream_exhausted he.phase]

/-- At most `n` STEPs lead from `s` to `u`, delivering `rs`. -/
inductive StreamRun : Nat → State → List Record → State → Prop where
  | stop (s : State) : StreamRun 0 s [] s
  | exhausted (n : Nat) (s : State) (hp : s.phase = .exh) : StreamRun n s [] s
  | record {n : Nat} {s t u : State} {rs : List Record} (hb : Begun s) (hp : s.phase ≠ .exh)
      (hrest : SameRest { s with host := [] } t) (hd : Delivered s t (firstByteIndex s)) (hrun : StreamRun n t rs u) :
      StreamRun (n + 1) s (t.record :: rs) u
  | ended {n : Nat} {s t : State} (hb : Begun s) (hp : s.phase ≠ .exh)
      (hrest : SameRest { s with host := [] } t) (he : Ended s t) : StreamRun (n + 1) s [] t

theorem streamRun_runStream {s : State} (hb : Begun s) (n : Nat) :
    StreamRun n s (runStream n s).1 (runStream n s).2 := by
  induction n generalizing s with
  | zero => exact .stop s
  | succ n ih =>
    by_cases hp : s.phase = .exh
    · rw [runStream_exhausted hp]; exact .exhausted _ _ hp
    · obtain ⟨t, ht, hbt, hrest, hd | he⟩ := hb.step hp
      · rw [runStream_record hp ht hd.recValid]; exact .record hb hp hrest hd (ih hbt)
      · rw [runStream_ended hp ht he]; exact .ended hb hp hrest he

/-- The run that a START begins. -/
theorem streamRun_start {s0 : State} (hb : s0.busy = false) (n : Nat) :
    StreamRun n (startStream { s0 with host := [] }) (runStream n (startStream { s0 with host := [] })).1
      (runStream n (startStream { s0 with host := [] })).2 := streamRun_runStream (begun_startStream hb) n

section
variable {n : Nat} {s u : State} {rs : List Record}

theorem StreamRun.of_exhausted (h : StreamRun n s rs u) (hp : s.phase = .exh) : rs = [] ∧ u = s := by
  cases h with
  | stop => exact ⟨rfl, rfl⟩
  | exhausted => exact ⟨rfl, rfl⟩
  | record hb hp' => exact absurd hp hp'
  | ended hb hp' => exact absurd hp hp'

/-! ### The run ends (R124) -/

/-- Every record takes at least one byte, so LEN - CUR + 1 STEPs are enough. -/
theorem StreamRun.exhausts (h : StreamRun n s rs u) (hn : s.phase = .exh ∨ s.len.toNat - s.cur.toNat < n) :
    u.phase = .exh := by
  induction h with
  | stop s => exact hn.resolve_right (Nat.not_lt_zero _)
  | exhausted n s hp => exact hp
  | ended hb hp hrest he => exact he.phase
  | @record n s t u rs hb hp hrest hd hrun ih =>
    refine ih (hd.phase_cases.imp_right fun _ => ?_)
    have hroom := hn.resolve_left hp
    have hlo := hd.lo
    have hhi := hd.hi
    have hcur := hd.cur_eq_add
    have hpos := hd.spanLen_pos
    have hlen : t.len = s.len := hrest.len
    rw [hlen]
    omega

theorem StreamRun.cur_eq_len (h : StreamRun n s rs u) (hp : s.phase ≠ .exh) (hu : u.phase = .exh) :
    u.cur = s.len := by
  induction h with
  | stop s => exact absurd hu hp
  | exhausted n s hexh => exact absurd hexh hp
  | ended hb _ hrest he => exact he.cur_eq hb.cur
  | record hb _ hrest hd hrun ih =>
    cases htr : Record.trunc _ with
    | true =>
      obtain ⟨-, rfl⟩ := hrun.of_exhausted (hd.phase_exh htr)
      exact hd.cur_eq htr
    | false => exact (ih (by simp [hd.phase_run htr]) hu).trans hrest.len

/-- How an exhausted run ended: in end-of-stream (R114), or in a truncated record, which is the last (R118). -/
inductive RunEnd (rs : List Record) (u : State) : Prop where
  | eos (heos : u.eos = true) (hrv : u.recValid = false) (hwhole : ∀ r ∈ rs, r.trunc = false)
  | truncated (before : List Record) (hrs : rs = before ++ [u.record]) (htr : u.record.trunc = true)
      (heos : u.eos = false) (hrv : u.recValid = true) (hwhole : ∀ r ∈ before, r.trunc = false)

theorem StreamRun.runEnd (h : StreamRun n s rs u) (hp : s.phase ≠ .exh) (hu : u.phase = .exh) : RunEnd rs u := by
  induction h with
  | stop s => exact absurd hu hp
  | exhausted n s hexh => exact absurd hexh hp
  | ended hb _ hrest he => exact .eos he.eos he.recValid (by simp)
  | @record n s t u rs hb _ hrest hd hrun ih =>
    cases htr : t.record.trunc with
    | true =>
      obtain ⟨rfl, rfl⟩ := hrun.of_exhausted (hd.phase_exh htr)
      exact .truncated [] rfl htr hd.eos hd.recValid (by simp)
    | false =>
      cases ih (by simp [hd.phase_run htr]) hu with
      | eos heos hrv hwhole => exact .eos heos hrv (List.forall_mem_cons.mpr ⟨htr, hwhole⟩)
      | truncated before hrs htr' heos hrv hwhole =>
        exact .truncated (t.record :: before) (by rw [hrs, List.cons_append]) htr' heos hrv
          (List.forall_mem_cons.mpr ⟨htr, hwhole⟩)

/-! ### Its records cover the stream (R125, R126) -/

theorem firstByteIndex_of_not_lead {s : State} (h : s.phase ≠ .lead) : firstByteIndex s = s.cur.toNat := if_neg h

/-- The next instruction starts where the span ended. -/
theorem Delivered.firstByteIndex_next {s t : State} {c : Nat} (h : Delivered s t c) :
    firstByteIndex t = c + t.record.spanLen.toNat := by
  rw [firstByteIndex_of_not_lead, h.cur_eq_add]
  rcases h.phase_cases with hph | hph <;> simp [hph]

theorem Ended.firstByteIndex_next {s t : State} (h : Ended s t) (hc : s.cur ≤ s.len) :
    firstByteIndex t = firstByteIndex s := by
  rw [firstByteIndex_of_not_lead (by simp [h.phase]), h.cur, toNat_ofNat_le (firstByteIndex_bounds s hc).2]

@[simp] theorem spanTotal_cons (r : Record) (rs : List Record) :
    spanTotal (r :: rs) = r.spanLen.toNat + spanTotal rs := by simp [spanTotal]

theorem StreamRun.firstByteIndex_add_spanTotal (h : StreamRun n s rs u) :
    firstByteIndex s + spanTotal rs = firstByteIndex u := by
  induction h with
  | stop s => rfl
  | exhausted n s hp => rfl
  | ended hb hp hrest he => exact (he.firstByteIndex_next hb.cur).symm
  | record hb hp hrest hd hrun ih => rw [spanTotal_cons, ← ih, hd.firstByteIndex_next, Nat.add_assoc]

/-- R125: the zeros and the spans of an exhausted run make LEN. -/
theorem StreamRun.firstByteIndex_add_spanTotal_eq_len (h : StreamRun n s rs u) (hp : s.phase ≠ .exh)
    (hu : u.phase = .exh) : firstByteIndex s + spanTotal rs = s.len.toNat := by
  rw [h.firstByteIndex_add_spanTotal, firstByteIndex_of_not_lead (by simp [hu]), h.cur_eq_len hp hu]

theorem readBytes_clean {s : State} (h : s.dirty = []) (i n : Nat) :
    readBytes s i n = (List.range' i n).map s.buf.read := by
  rw [readBytes_eq_map, funext (engineByte_clean h .decode)]

theorem StreamRun.flatMap_spanBytes (h : StreamRun n s rs u) :
    rs.flatMap spanBytes = (List.range' (firstByteIndex s) (spanTotal rs)).map s.buf.read := by
  induction h with
  | stop s => rfl
  | exhausted n s hp => rfl
  | ended hb hp hrest he => rfl
  | @record n s t u rs hb hp hrest hd hrun ih =>
    have hbuf : t.buf = s.buf := hrest.buf
    rw [List.flatMap_cons, ih, hd.spanBytes_eq, readBytes_clean hb.dirty, hd.firstByteIndex_next, hbuf,
      ← List.map_append, List.range'_append_1, spanTotal_cons]

theorem StreamRun.addressesFrom (h : StreamRun n s rs u) :
    addressesFrom (s.base + BitVec.ofNat 64 (firstByteIndex s)) rs := by
  induction h with
  | stop s => trivial
  | exhausted n s hp => trivial
  | ended hb hp hrest he => trivial
  | @record n s t u rs hb hp hrest hd hrun ih =>
    have hbase : t.base = s.base := hrest.base
    refine ⟨by rw [hd.record]; rfl, ?_⟩
    rwa [BitVec.add_assoc, ← BitVec.ofNat_add, ← hd.firstByteIndex_next, ← hbase]

end

/-! ### The statements about whole runs -/

/-- The first STEP after a START skips the zeros of the buffer (R113). -/
theorem isLeadingZeroCount_start (s0 : State) :
    IsLeadingZeroCount s0 (firstByteIndex (startStream { s0 with host := [] })) := by
  obtain ⟨-, hle, hzero, hne⟩ := skipZeros_spec (startStream { s0 with host := [] }) s0.len.toNat 0
  rw [Nat.zero_add] at hle hne
  refine ⟨hle, fun j hj => ?_, fun hlt => ?_⟩
  · rw [← hzero j (Nat.zero_le j) hj]; rfl
  · exact hne hlt

/-- Settles O47: LEN + 1 STEPs exhaust the stream, in one of two ways. -/
theorem streamRunEnds : Obligations.StreamRunEnds := by
  unfold Obligations.StreamRunEnds
  intro s0 n hb hl hn
  have hrun := streamRun_start hb n
  have hlead : (startStream { s0 with host := [] }).phase ≠ .exh := by simp
  have hexh := hrun.exhausts (.inr (Nat.lt_of_succ_le hn))
  refine ⟨_, issue_start s0 hb hl, hexh, hrun.cur_eq_len hlead hexh, ?_⟩
  cases hrun.runEnd hlead hexh with
  | eos heos hrv hwhole =>
    exact ⟨fun r hr => hwhole r (List.mem_of_mem_dropLast hr), by simp [heos, hrv], fun _ => hwhole,
      fun hne => absurd heos (by simp [hne])⟩
  | truncated before hrs htr heos hrv hwhole =>
    refine ⟨?_, by simp [heos, hrv], fun he => absurd heos (by simp [he]), fun _ => ⟨_, ?_, htr, rfl⟩⟩
    · rw [hrs, List.dropLast_concat]; exact hwhole
    · rw [hrs, List.getLast?_concat]

/-- Settles O48: the spans reach from the first byte after the zeros to where the run ends, which is LEN. -/
theorem streamSpansCoverTheBuffer : Obligations.StreamSpansCoverTheBuffer := by
  unfold Obligations.StreamSpansCoverTheBuffer
  intro s0 n hb hl hn
  have hrun := streamRun_start hb n
  have hexh := hrun.exhausts (.inr (Nat.lt_of_succ_le hn))
  have hsum : _ = s0.len.toNat := hrun.firstByteIndex_add_spanTotal_eq_len (by simp) hexh
  refine ⟨_, _, issue_start s0 hb hl, isLeadingZeroCount_start s0, hsum, ?_⟩
  rw [Nat.sub_eq_of_eq_add' hsum.symm]
  exact hrun.flatMap_spanBytes

/-- Settles O49: the first instruction starts after the zeros, each later one where the span before it ends. -/
theorem streamAddressesFollow : Obligations.StreamAddressesFollow := by
  unfold Obligations.StreamAddressesFollow
  intro s0 n hb hl
  exact ⟨_, _, issue_start s0 hb hl, isLeadingZeroCount_start s0, (streamRun_start hb n).addressesFrom⟩

/-! ### The wrapper beside the host's loop (R129, R241) -/

theorem performsStep_stepCmd {s : State} (hb : s.busy = false) (hst : streaming s = true) :
    performsStep HostAction.stepCmd s = true := by
  simp [performsStep, HostAction.stepCmd, hb, hst]

theorem beginsStream_stepCmd (s : State) : beginsStream HostAction.stepCmd s = false := by
  simp [beginsStream, HostAction.stepCmd]

theorem beginsStream_start {s : State} (hb : s.busy = false) : beginsStream HostAction.start s = true := by
  simp [beginsStream, HostAction.start, hb]

/-- The wrapper formats what the loop reads: each record once, and nothing at end-of-stream. -/
theorem runWrapper_eq (p : WrapperParams) (n : Nat) (h : History) {s : State} (hb : Begun s) :
    runWrapper p n h s = (formatStream p h (runStream n s).1, historyAfter h (runStream n s).1) := by
  induction n generalizing h s with
  | zero => rfl
  | succ n ih =>
    by_cases hp : s.phase = .exh
    · rw [runStream_exhausted hp, runWrapper, if_pos hp]; rfl
    · obtain ⟨t, ht, hbt, -, hd | he⟩ := hb.step hp
      · have hformat := wrapperStep_formats p _ s t h (beginsStream_stepCmd s)
          (performsStep_stepCmd hb.busy (hb.streaming hp)) hd.recValid
        rw [runStream_record hp ht hd.recValid, runWrapper, if_neg hp, ht]
        simp only [hformat, ih _ hbt]
        rfl
      · have hkeep := wrapperStep_keeps p _ s t h (beginsStream_stepCmd s) (by rw [he.recValid, Bool.and_false])
        rw [runStream_ended hp ht he, runWrapper, if_neg hp, ht]
        simp only [hkeep, ih _ hbt, runStream_exhausted he.phase]
        rfl

/-- Settles O52: START sets the history to NONE, and from there on the wrapper formats the records of the loop. -/
theorem wrapperFormatsStreamFromNone : Obligations.WrapperFormatsStreamFromNone := by
  unfold Obligations.WrapperFormatsStreamFromNone
  intro p h s0 n hb hl
  have hnone : (wrapperStep p HostAction.start s0 (startStream { s0 with host := [] }) h).2 = .none := by
    rw [wrapperStep_begins p _ s0 _ h (beginsStream_start hb)]; rfl
  have hrun := runWrapper_eq p n .none (begun_startStream hb)
  refine ⟨_, issue_start s0 hb hl, ?_, ?_, rfl⟩ <;> rw [hnone, hrun]

end Sys2Proof.Machine

/-! Proof of O6: the delivery of a whole instruction, and the instructions of format B. -/

namespace Sys2Proof.Machine

open Sys2Proof.Claims

/-- With all its bytes in the stream an instruction delivers them as its span, and is not truncated. -/
theorem deliver_whole {s : State} {bytes : List Byte} (fmt : Fmt) (valid : Bool) (hpos : 0 < bytes.length)
    (h : s.cur.toNat + bytes.length ≤ s.len.toNat) :
    deliver fmt valid bytes s =
      .next (completed s bytes.length (recordOf (s.base + s.cur) fmt valid true bytes)) := by
  have hle : bytes.length ≤ remaining s s.cur.toNat := Nat.le_sub_of_add_le' h
  rw [deliver_eq fmt valid bytes s _ rfl (by omega), List.take_of_length_le hle, Nat.min_eq_left hle,
    decide_eq_true hle]
  rfl

/-- The record of one byte in format B has neither register byte nor D (R90). -/
theorem recordOf_B (a : Word) (valid complete : Bool) (icode ifun : Nibble) :
    recordOf a .B valid complete (layoutB (byteOf icode ifun)) =
      { addr := a, icode := icode, ifun := ifun, ra := 0xF, rb := 0xF, d := 0
        span := #v[byteOf icode ifun, 0, 0, 0, 0, 0, 0, 0, 0, 0], spanLen := 1
        fmt := .B, valid := valid, trunc := !complete } := by
  have hhi : hiNibble ((layoutB (byteOf icode ifun)).headD 0) = icode := hiNibble_byteOf icode ifun
  have hlo : loNibble ((layoutB (byteOf icode ifun)).headD 0) = ifun := loNibble_byteOf icode ifun
  rw [recordOf, hhi, hlo]
  rfl

/-- An instruction whose meaning is the delivery of one byte delivers it whole whenever a byte is left. -/
theorem deliversB_of_exec {i : Instr} {icode ifun : Nibble}
    (he : ∀ s, exec i s = deliver .B true (layoutB (byteOf icode ifun)) s) : DeliversB i icode ifun := by
  intro s h
  rw [he s, deliver_whole (bytes := layoutB (byteOf icode ifun)) .B true Nat.one_pos h, recordOf_B]
  rfl

/-- A first byte that is not valid has format INV, and with it eight bytes (R220, R221). -/
theorem invalidFrom_of_validCode {icode : Nibble} {lo : Nat}
    (h : ∀ ifun : Nibble, lo ≤ ifun.toNat → validCode icode ifun = false) : InvalidFrom icode lo := by
  intro ifun hlo
  have hv : validByte (byteOf icode ifun) = false := by
    rw [validByte, hiNibble_byteOf, loNibble_byteOf, h ifun hlo]
  exact ⟨hv, lengthOf_invalid hv, by rw [formatOf, hv]; rfl⟩

/-- Settles O6: both meanings are the delivery of one byte, and classes 0 and 1 have IFUN 0 as their only variant. -/
theorem haltAndNopDeliverRecords : Obligations.HaltAndNopDeliverRecords :=
  ⟨deliversB_of_exec fun _ => rfl, deliversB_of_exec fun _ => rfl,
    invalidFrom_of_validCode (by decide), invalidFrom_of_validCode (by decide)⟩

end Sys2Proof.Machine

/-! Proofs of O7 and O8: the bytes of a little-endian field, the delivery of an instruction that the stream cuts short,
and the instructions of formats BR and BRD. -/

namespace Sys2Proof

/-- The little-endian bytes of a bit vector are its 8-bit slices, the lowest first (R13, R64). -/
theorem leBytes_toNat_eq_map_extractLsb' {w : Nat} (n : Nat) (x : BitVec w) :
    leBytes n x.toNat = (List.range n).map fun k => x.extractLsb' (8 * k) 8 := by
  induction n generalizing x with
  | zero => rfl
  | succ n ih =>
    have htail : x.toNat / 256 = (x >>> 8).toNat := by
      rw [BitVec.toNat_ushiftRight, Nat.shiftRight_eq_div_pow]
    have hslice (k : Nat) : (x >>> 8).extractLsb' (8 * k) 8 = x.extractLsb' (8 * (k + 1)) 8 := by
      simp only [BitVec.extractLsb', BitVec.toNat_ushiftRight, ← Nat.shiftRight_add, Nat.mul_succ, Nat.add_comm]
    rw [leBytes, htail, ih, List.range_succ_eq_map, List.map_cons, List.map_map]
    simp only [hslice]
    rfl

/-- The bytes of a field that are there weigh what the field does modulo the missing ones (R123). -/
theorem le_take_leBytes {k n : Nat} (h : k ≤ n) (v : Nat) :
    le ((leBytes n v).take k) = BitVec.ofNat 64 (v % 2 ^ (8 * k)) := by
  rw [take_leBytes, Nat.min_eq_left h, le, leNat_leBytes, Nat.pow_mul]

@[simp] theorem length_layoutBRD (b0 : Byte) (ra rb : Nibble) (d : Word) : (layoutBRD b0 ra rb d).length = 10 := by
  simp [layoutBRD]

end Sys2Proof

namespace Sys2Proof.Machine

open Sys2Proof.Claims

/-- With only `n` of its bytes in the stream an instruction delivers these, and exhausts the stream (R118). -/
theorem deliver_short {s : State} {bytes : List Byte} {n : Nat} (fmt : Fmt) (valid : Bool) (hpos : 1 ≤ n)
    (hshort : n < bytes.length) (h : s.cur.toNat + n = s.len.toNat) :
    deliver fmt valid bytes s =
      .next (cutShort s (recordOf (s.base + s.cur) fmt valid false (bytes.take n))) := by
  have hrem : remaining s s.cur.toNat = n := by unfold remaining; omega
  have hcur : s.cur + BitVec.ofNat 64 n = s.len := by
    apply BitVec.eq_of_toNat_eq
    have hlen := s.len.isLt
    simp only [BitVec.toNat_add, BitVec.toNat_ofNat]
    omega
  rw [deliver_eq fmt valid bytes s _ rfl (by omega), hrem, Nat.min_eq_right hshort.le,
    decide_eq_false (Nat.not_le.mpr hshort), commit, hcur]
  rfl

/-- A record's ICODE and IFUN are the nibbles of the first byte of its span (R115). -/
theorem recordOf_of_headD (a : Word) (fmt : Fmt) (valid complete : Bool) {icode ifun : Nibble} {span : List Byte}
    (h : span.headD 0 = byteOf icode ifun) :
    recordOf a fmt valid complete span =
      { addr := a, icode := icode, ifun := ifun, ra := raOf fmt span, rb := rbOf fmt span, d := dOf fmt span
        span := spanCells span, spanLen := BitVec.ofNat 4 span.length
        fmt := fmt, valid := valid, trunc := !complete } := by
  rw [recordOf, h, hiNibble_byteOf, loNibble_byteOf]

/-! ### The register byte (R87, R116, R123) -/

theorem raOf_register_byte {fmt : Fmt} (h : fmtHasReg fmt = true) (b0 : Byte) (ra rb : Nibble) (tail : List Byte) :
    raOf fmt (b0 :: byteOf ra rb :: tail) = ra :=
  (if_pos h).trans (hiNibble_byteOf ra rb)

theorem rbOf_register_byte {fmt : Fmt} (h : fmtHasReg fmt = true) (b0 : Byte) (ra rb : Nibble) (tail : List Byte) :
    rbOf fmt (b0 :: byteOf ra rb :: tail) = rb :=
  (if_pos h).trans (loNibble_byteOf ra rb)

/-- Without a register byte both codes are 0xF, whether the format has none or the stream ends before it. -/
theorem raOf_first_byte (fmt : Fmt) (b0 : Byte) : raOf fmt [b0] = 0xF := ite_eq_right_iff.mpr fun _ => hiNibble_ff

theorem rbOf_first_byte (fmt : Fmt) (b0 : Byte) : rbOf fmt [b0] = 0xF := ite_eq_right_iff.mpr fun _ => loNibble_ff

/-! ### Format BR -/

/-- An instruction whose meaning is the delivery of layout BR delivers both nibbles when both bytes are left. -/
theorem completesBR_of_exec {mk : Nibble → Nibble → Instr} {icode ifun : Nibble}
    (he : ∀ ra rb s, exec (mk ra rb) s = deliver .BR true (layoutBR (byteOf icode ifun) ra rb) s) :
    CompletesBR mk icode ifun := by
  intro ra rb s h
  have hhead : (layoutBR (byteOf icode ifun) ra rb).headD 0 = byteOf icode ifun := rfl
  rw [he, deliver_whole (bytes := layoutBR (byteOf icode ifun) ra rb) .BR true Nat.two_pos h,
    recordOf_of_headD _ _ _ _ hhead, layoutBR, raOf_register_byte rfl, rbOf_register_byte rfl]
  rfl

/-- With the first byte alone its record has no register code. -/
theorem truncatesBR_of_exec {mk : Nibble → Nibble → Instr} {icode ifun : Nibble}
    (he : ∀ ra rb s, exec (mk ra rb) s = deliver .BR true (layoutBR (byteOf icode ifun) ra rb) s) :
    TruncatesBR mk icode ifun := by
  intro ra rb s h
  have hspan : (layoutBR (byteOf icode ifun) ra rb).take 1 = [byteOf icode ifun] := rfl
  have hhead : [byteOf icode ifun].headD 0 = byteOf icode ifun := rfl
  rw [he, deliver_short (bytes := layoutBR (byteOf icode ifun) ra rb) .BR true (le_refl 1) Nat.one_lt_two h, hspan,
    recordOf_of_headD _ _ _ _ hhead, raOf_first_byte, rbOf_first_byte]
  rfl

/-- Settles O7: each of the seven meanings is the delivery of layout BR, and class 2 has IFUN 0 to 6. -/
theorem registerMovesDeliverRecords : Obligations.RegisterMovesDeliverRecords :=
  ⟨⟨completesBR_of_exec fun _ _ _ => rfl, completesBR_of_exec fun _ _ _ => rfl, completesBR_of_exec fun _ _ _ => rfl,
      completesBR_of_exec fun _ _ _ => rfl, completesBR_of_exec fun _ _ _ => rfl, completesBR_of_exec fun _ _ _ => rfl,
      completesBR_of_exec fun _ _ _ => rfl⟩,
    ⟨truncatesBR_of_exec fun _ _ _ => rfl, truncatesBR_of_exec fun _ _ _ => rfl, truncatesBR_of_exec fun _ _ _ => rfl,
      truncatesBR_of_exec fun _ _ _ => rfl, truncatesBR_of_exec fun _ _ _ => rfl, truncatesBR_of_exec fun _ _ _ => rfl,
      truncatesBR_of_exec fun _ _ _ => rfl⟩,
    invalidFrom_of_validCode (by decide)⟩

/-! ### Format BRD -/

/-- D is the field that follows the register byte (R90, R117). -/
theorem dOf_layoutBRD (b0 : Byte) (ra rb : Nibble) (d : Word) : dOf .BRD (layoutBRD b0 ra rb d) = d :=
  le_leBytes_toNat d

theorem spanCells_layoutBRD (b0 : Byte) (ra rb : Nibble) (d : Word) :
    spanCells (layoutBRD b0 ra rb d) =
      #v[b0, byteOf ra rb, dByte d 0, dByte d 1, dByte d 2, dByte d 3, dByte d 4, dByte d 5, dByte d 6, dByte d 7] := by
  rw [layoutBRD, leBytes_toNat_eq_map_extractLsb']
  rfl

theorem raOf_take_layoutBRD (b0 : Byte) (ra rb : Nibble) (d : Word) {n : Nat} (hpos : 1 ≤ n) :
    raOf .BRD ((layoutBRD b0 ra rb d).take n) = if n = 1 then 0xF else ra := by
  match n, hpos with
  | 1, _ => exact raOf_first_byte .BRD b0
  | m + 2, _ =>
    rw [if_neg (by omega)]
    exact raOf_register_byte rfl b0 ra rb _

theorem rbOf_take_layoutBRD (b0 : Byte) (ra rb : Nibble) (d : Word) {n : Nat} (hpos : 1 ≤ n) :
    rbOf .BRD ((layoutBRD b0 ra rb d).take n) = if n = 1 then 0xF else rb := by
  match n, hpos with
  | 1, _ => exact rbOf_first_byte .BRD b0
  | m + 2, _ =>
    rw [if_neg (by omega)]
    exact rbOf_register_byte rfl b0 ra rb _

/-- R123 (2): D is the value of the bytes of the field that are there. -/
theorem dOf_take_layoutBRD (b0 : Byte) (ra rb : Nibble) (d : Word) {n : Nat} (h : n ≤ 10) :
    dOf .BRD ((layoutBRD b0 ra rb d).take n) = BitVec.ofNat 64 (d.toNat % 2 ^ (8 * (n - 2))) := by
  rw [dOf, List.drop_take]
  exact le_take_leBytes (by omega) d.toNat

/-- An instruction whose meaning is the delivery of layout BRD delivers the nibbles and D when all ten bytes are
left. -/
theorem completesBRD_of_exec {mk : Nibble → Nibble → Word → Instr} {icode ifun : Nibble}
    (he : ∀ ra rb d s, exec (mk ra rb d) s = deliver .BRD true (layoutBRD (byteOf icode ifun) ra rb d) s) :
    CompletesBRD mk icode ifun := by
  intro ra rb d s h
  have hlen := length_layoutBRD (byteOf icode ifun) ra rb d
  have hhead : (layoutBRD (byteOf icode ifun) ra rb d).headD 0 = byteOf icode ifun := rfl
  rw [he, deliver_whole .BRD true (by omega) (by omega), recordOf_of_headD _ _ _ _ hhead, dOf_layoutBRD,
    spanCells_layoutBRD, hlen, layoutBRD, raOf_register_byte rfl, rbOf_register_byte rfl]
  rfl

/-- With `n` of the ten bytes left its record has neither nibble without the register byte, and of D what is there. -/
theorem truncatesBRD_of_exec {mk : Nibble → Nibble → Word → Instr} {icode ifun : Nibble}
    (he : ∀ ra rb d s, exec (mk ra rb d) s = deliver .BRD true (layoutBRD (byteOf icode ifun) ra rb d) s) :
    TruncatesBRD mk icode ifun := by
  intro ra rb d s n hpos hle h
  have hlen := length_layoutBRD (byteOf icode ifun) ra rb d
  have hhead : ((layoutBRD (byteOf icode ifun) ra rb d).take n).headD 0 = byteOf icode ifun := by
    cases n with
    | zero => omega
    | succ m => rfl
  rw [he, deliver_short .BRD true hpos (by omega) h, recordOf_of_headD _ _ _ _ hhead, raOf_take_layoutBRD _ _ _ _ hpos,
    rbOf_take_layoutBRD _ _ _ _ hpos, dOf_take_layoutBRD _ _ _ _ (by omega), List.length_take_of_le (by omega)]
  rfl

/-- Settles O8: the three meanings are deliveries of layout BRD, and classes 3, 4 and 5 have IFUN 0 as their only
variant. -/
theorem immediateAndMemoryMovesDeliver : Obligations.ImmediateAndMemoryMovesDeliver :=
  ⟨⟨completesBRD_of_exec fun _ _ _ _ => rfl, completesBRD_of_exec fun _ _ _ _ => rfl,
      completesBRD_of_exec fun _ _ _ _ => rfl⟩,
    ⟨truncatesBRD_of_exec fun _ _ _ _ => rfl, truncatesBRD_of_exec fun _ _ _ _ => rfl,
      truncatesBRD_of_exec fun _ _ _ _ => rfl⟩,
    invalidFrom_of_validCode (by decide), invalidFrom_of_validCode (by decide), invalidFrom_of_validCode (by decide)⟩

end Sys2Proof.Machine

/-! Proof of O9: the OP instructions are the class of format BR at ICODE 6. -/

namespace Sys2Proof.Machine

open Sys2Proof.Claims

/-- Settles O9: each OP, named or not, means the delivery of layout BR (R180), so both of its records are those of
format BR; class 6 has IFUN 0 to 6. -/
theorem arithmeticDeliversRecords : Obligations.ArithmeticDeliversRecords := by
  refine ⟨⟨?addq, ?subq, ?andq, ?xorq, ?op4, ?op5, ?op6⟩,
    ⟨?addqShort, ?subqShort, ?andqShort, ?xorqShort, ?op4Short, ?op5Short, ?op6Short⟩, ?invalid⟩
  case invalid => exact invalidFrom_of_validCode (by decide)
  case addq | subq | andq | xorq | op4 | op5 | op6 => exact completesBR_of_exec fun _ _ _ => rfl
  case addqShort | subqShort | andqShort | xorqShort | op4Short | op5Short | op6Short =>
    exact truncatesBR_of_exec fun _ _ _ => rfl

end Sys2Proof.Machine

/-! Proofs of O10, O11 and O15: the instructions of format BD, and that no target reaches CUR, PHASE or STATUS. -/

namespace Sys2Proof

@[simp] theorem length_layoutBD (b0 : Byte) (d : Word) : (layoutBD b0 d).length = 9 := by
  simp [layoutBD]

end Sys2Proof

namespace Sys2Proof.Machine

open Sys2Proof.Claims

/-! ### Format BD -/

/-- Format BD has no register byte, so both codes are 0xF whatever the span holds (R116, R191). -/
theorem raOf_BD (span : List Byte) : raOf .BD span = 0xF := rfl

theorem rbOf_BD (span : List Byte) : rbOf .BD span = 0xF := rfl

/-- D is the field that follows the first byte (R90, R117). -/
theorem dOf_layoutBD (b0 : Byte) (d : Word) : dOf .BD (layoutBD b0 d) = d := le_leBytes_toNat d

theorem spanCells_layoutBD (b0 : Byte) (d : Word) :
    spanCells (layoutBD b0 d) =
      #v[b0, dByte d 0, dByte d 1, dByte d 2, dByte d 3, dByte d 4, dByte d 5, dByte d 6, dByte d 7, 0] := by
  rw [layoutBD, leBytes_toNat_eq_map_extractLsb']
  rfl

/-- R123 (2): D is the value of the bytes of the field that are there. -/
theorem dOf_take_layoutBD (b0 : Byte) (d : Word) {n : Nat} (h : n ≤ 9) :
    dOf .BD ((layoutBD b0 d).take n) = BitVec.ofNat 64 (d.toNat % 2 ^ (8 * (n - 1))) := by
  rw [dOf, List.drop_take]
  exact le_take_leBytes (by omega) d.toNat

/-- An instruction whose meaning is the delivery of layout BD delivers D when all nine bytes are left. -/
theorem completesBD_of_exec {mk : Word → Instr} {icode ifun : Nibble}
    (he : ∀ d s, exec (mk d) s = deliver .BD true (layoutBD (byteOf icode ifun) d) s) : CompletesBD mk icode ifun := by
  intro d s h
  have hlen := length_layoutBD (byteOf icode ifun) d
  have hhead : (layoutBD (byteOf icode ifun) d).headD 0 = byteOf icode ifun := rfl
  rw [he, deliver_whole .BD true (by omega) (by omega), recordOf_of_headD _ _ _ _ hhead, raOf_BD, rbOf_BD,
    dOf_layoutBD, spanCells_layoutBD, hlen]
  rfl

/-- With `n` of the nine bytes left its record has of D what is there. -/
theorem truncatesBD_of_exec {mk : Word → Instr} {icode ifun : Nibble}
    (he : ∀ d s, exec (mk d) s = deliver .BD true (layoutBD (byteOf icode ifun) d) s) : TruncatesBD mk icode ifun := by
  intro d s n hpos hle h
  have hlen := length_layoutBD (byteOf icode ifun) d
  have hhead : ((layoutBD (byteOf icode ifun) d).take n).headD 0 = byteOf icode ifun := by
    cases n with
    | zero => omega
    | succ m => rfl
  rw [he, deliver_short .BD true hpos (by omega) h, recordOf_of_headD _ _ _ _ hhead, raOf_BD, rbOf_BD,
    dOf_take_layoutBD _ _ (by omega), List.length_take_of_le (by omega)]
  rfl

/-- Settles O10: the seven jumps and call mean the delivery of layout BD (R191); class 7 has IFUN 0 to 6 and class 8
IFUN 0 alone. -/
theorem jumpsAndCallDeliverRecords : Obligations.JumpsAndCallDeliverRecords := by
  refine ⟨⟨?jmp, ?jle, ?jl, ?je, ?jne, ?jge, ?jg, ?call⟩,
    ⟨?jmpShort, ?jleShort, ?jlShort, ?jeShort, ?jneShort, ?jgeShort, ?jgShort, ?callShort⟩, ?invalidJ, ?invalidCall⟩
  case jmp | jle | jl | je | jne | jge | jg | call => exact completesBD_of_exec fun _ _ => rfl
  case jmpShort | jleShort | jlShort | jeShort | jneShort | jgeShort | jgShort | callShort =>
    exact truncatesBD_of_exec fun _ _ => rfl
  case invalidJ | invalidCall => exact invalidFrom_of_validCode (by decide)

/-! ### Format B: ret -/

/-- ret means the delivery of its one byte (R200). -/
theorem deliversB_ret : DeliversB .ret 0x9 0x0 := deliversB_of_exec fun _ => rfl

/-- Settles O11: the one byte of ret is there whenever a byte is left, and class 9 has IFUN 0 as its only variant. -/
theorem returnDeliversRecord : Obligations.ReturnDeliversRecord :=
  ⟨deliversB_ret, invalidFrom_of_validCode (by decide)⟩

/-! ### No transfer of control (R190) -/

/-- CUR, PHASE and STATUS agree: everything of the block's state but REC that a delivery can move. -/
def SameControl (t t' : State) : Prop := t.cur = t'.cur ∧ t.phase = t'.phase ∧ statusWord t = statusWord t'

/-- Where a delivery leaves CUR, PHASE and STATUS depends on how many bytes the encoding has, not on which. -/
theorem deliver_sameControl (fmt : Fmt) (valid : Bool) {bytes bytes' : List Byte} (hlen : bytes.length = bytes'.length)
    (s : State) :
    ∃ t t', deliver fmt valid bytes s = .next t ∧ deliver fmt valid bytes' s = .next t' ∧ SameControl t t' := by
  by_cases h : s.cur.toNat < s.len.toNat
  · refine ⟨_, _, deliver_eq fmt valid bytes s _ rfl h, deliver_eq fmt valid bytes' s _ rfl h, ?_⟩
    rw [hlen]
    exact ⟨rfl, rfl, rfl⟩
  · have heos := Nat.le_of_not_lt h
    exact ⟨_, _, deliver_eos fmt valid bytes s heos, deliver_eos fmt valid bytes' s heos, rfl, rfl, rfl⟩

/-- Each jump, and call, is a delivery of layout BD behind a first byte that its target has no part in (R191). -/
theorem exec_jump_or_call {mk : Word → Instr}
    (hmk : mk ∈ [Instr.jmp, Instr.jle, Instr.jl, Instr.je, Instr.jne, Instr.jge, Instr.jg, Instr.call]) :
    ∃ b0, ∀ d s, exec (mk d) s = deliver .BD true (layoutBD b0 d) s := by
  simp only [List.mem_cons, List.not_mem_nil, or_false] at hmk
  rcases hmk with rfl | rfl | rfl | rfl | rfl | rfl | rfl | rfl <;> exact ⟨_, fun _ _ => rfl⟩

/-- Settles O15: the target is in the bytes a jump or call delivers and not in their number; a whole delivery moves CUR
by that number. -/
theorem targetNeverMovesTheCursor : Obligations.TargetNeverMovesTheCursor := by
  refine ⟨fun mk hmk d d' s => ?jumpOrCall, fun s h => ⟨_, deliversB_ret s h, rfl⟩⟩
  obtain ⟨b0, he⟩ := exec_jump_or_call hmk
  have hlen (d : Word) := length_layoutBD b0 d
  obtain ⟨t, t', ht, ht', hcur, hphase, hstatus⟩ :=
    deliver_sameControl .BD true ((hlen d).trans (hlen d').symm) s
  refine ⟨t, t', (he d s).trans ht, (he d' s).trans ht', hcur, hphase, hstatus, fun hwhole => ?_⟩
  rw [deliver_whole .BD true (by simp) (by simpa using hwhole), hlen] at ht
  cases ht
  rfl

end Sys2Proof.Machine

/-! Proof of O12: push and pop are instructions of format BR. -/

namespace Sys2Proof.Machine

open Sys2Proof.Claims

/-- The meaning of push is the delivery of layout BR behind 0xA0, its rB no more restricted than its rA (R210, R211). -/
theorem exec_pushq (ra rb : Nibble) (s : State) :
    exec (.pushq ra rb) s = deliver .BR true (layoutBR (byteOf 0xA 0x0) ra rb) s := rfl

/-- The meaning of pop is the same behind 0xB0 (R210, R212). -/
theorem exec_popq (ra rb : Nibble) (s : State) :
    exec (.popq ra rb) s = deliver .BR true (layoutBR (byteOf 0xB 0x0) ra rb) s := rfl

/-- Settles O12: both meanings are deliveries of layout BR, so both of their records are those of format BR; classes 0xA
and 0xB have IFUN 0 as their only variant. -/
theorem pushAndPopDeliverRecords : Obligations.PushAndPopDeliverRecords :=
  ⟨completesBR_of_exec exec_pushq, completesBR_of_exec exec_popq,
    truncatesBR_of_exec exec_pushq, truncatesBR_of_exec exec_popq,
    invalidFrom_of_validCode (by decide), invalidFrom_of_validCode (by decide)⟩

end Sys2Proof.Machine

/-! Proof of O4: an invalid first byte is one of a class beyond 0xB, or a variant its class does not have. -/

namespace Sys2Proof.Machine

/-- The format is INV for an invalid first byte alone: a valid one has the format its class's two fields make (R88). -/
theorem formatOf_eq_inv_iff (b0 : Byte) : formatOf b0 = .INV ↔ validByte b0 = false := by
  unfold formatOf
  cases validByte b0 with
  | false => simp
  | true => cases hasReg (hiNibble b0) <;> cases hasD (hiNibble b0) <;> simp

/-- The three ways to be invalid (R220): an ICODE without a class, a variant past the only one, a variant past the
seventh. -/
theorem validCode_eq_false_iff (icode ifun : Nibble) :
    validCode icode ifun = false ↔
      0xC ≤ icode.toNat ∨
      ([0, 1, 3, 4, 5, 8, 9, 0xA, 0xB].contains icode.toNat = true ∧ 1 ≤ ifun.toNat) ∨
      ([2, 6, 7].contains icode.toNat = true ∧ 7 ≤ ifun.toNat) := by
  unfold validCode
  split
  case h_1 h | h_2 h | h_3 h => simp [h, Nat.lt_iff_add_one_le]
  case h_13 =>
    have h : 0xC ≤ icode.toNat := by simp only [imp_false] at *; omega
    simp [h]
  all_goals next h => simp [h, Nat.one_le_iff_ne_zero]

/-- Settles O4: INV is the format of no valid byte, the three groups come from the classes, and the four counts are
evaluated over the 256 bytes. -/
theorem invalidFirstBytesAreThe226 : Obligations.InvalidFirstBytesAreThe226 := by
  unfold Obligations.InvalidFirstBytesAreThe226
  exact ⟨formatOf_eq_inv_iff, fun _ => validCode_eq_false_iff _ _, rfl, rfl, rfl, rfl⟩

end Sys2Proof.Machine

/-! Proofs of O50, O53 and O56: what the formatter answers for one record, and for a run of halts. -/

namespace Sys2Proof.Machine

/-! ### The formatter's answer for one record -/

/-- A record prints nothing when it has no byte (R244), or is a valid halt after a halt (R241). -/
def Silent (h : History) (r : Record) : Prop := r.spanLen = 0 ∨ (isHaltRecord r = true ∧ h = .halt)

theorem formatRecord_silent (p : WrapperParams) {h : History} {r : Record} (hs : Silent h r) :
    (formatRecord p h r).1 = .nothing := by
  obtain hempty | ⟨hhalt, rfl⟩ := hs
  · simp [formatRecord, hempty]
  · simp [formatRecord, hhalt]

theorem formatRecord_line {p : WrapperParams} {h : History} {r : Record} {body : Text} (hs : ¬ Silent h r)
    (hb : bodyText p r = some body) : (formatRecord p h r).1 = .line (lineWith r body) := by
  obtain ⟨hbyte, hhalt⟩ := not_or.mp hs
  simp only [formatRecord, if_neg hbyte, Bool.and_eq_true, beq_iff_eq, if_neg hhalt, hb]

theorem formatRecord_refused {p : WrapperParams} {h : History} {r : Record} (hs : ¬ Silent h r)
    (hb : bodyText p r = none) : (formatRecord p h r).1 = .refused r.addr := by
  obtain ⟨hbyte, hhalt⟩ := not_or.mp hs
  simp only [formatRecord, if_neg hbyte, Bool.and_eq_true, beq_iff_eq, if_neg hhalt, hb]

theorem formatRecord_eq_nothing_iff (p : WrapperParams) (h : History) (r : Record) :
    (formatRecord p h r).1 = .nothing ↔ Silent h r := by
  refine ⟨fun hn => by_contra fun hs => ?_, formatRecord_silent p⟩
  cases hb : bodyText p r with
  | none => simp [formatRecord_refused hs hb] at hn
  | some body => simp [formatRecord_line hs hb] at hn

/-- A refusal names the record's address, and comes of a record that has no body. -/
theorem of_formatRecord_refused {p : WrapperParams} {h : History} {r : Record} {a : Word}
    (href : (formatRecord p h r).1 = .refused a) : a = r.addr ∧ bodyText p r = none := by
  by_cases hs : Silent h r
  · simp [formatRecord_silent p hs] at href
  · cases hb : bodyText p r with
    | none => simpa [formatRecord_refused hs hb, eq_comm] using href
    | some body => simp [formatRecord_line hs hb] at href

theorem nextHistory_eq_halt_iff (r : Record) : nextHistory r = .halt ↔ isHaltRecord r = true := by
  cases hr : isHaltRecord r <;> simp [nextHistory, hr]

theorem nextHistory_eq_other_iff (r : Record) : nextHistory r = .other ↔ ¬ isHaltRecord r = true := by
  cases hr : isHaltRecord r <;> simp [nextHistory, hr]

/-- Settles O53: the history asks only whether the record is a valid halt, and so does a record that has a byte for what
it prints after a halt. -/
theorem historyFollowsTheRecord : Obligations.HistoryFollowsTheRecord := by
  unfold Obligations.HistoryFollowsTheRecord
  intro p h r
  rw [formatRecord_history, formatRecord_eq_nothing_iff, nextHistory_eq_halt_iff, nextHistory_eq_other_iff, Silent,
    isHaltRecord_iff, and_assoc]
  exact ⟨Iff.rfl, Iff.rfl, Iff.rfl⟩

/-! ### A run of halts (R241) -/

/-- The body of a whole halt's line: the mnemonic in its column of eight, and no operand (R235, R239). -/
theorem bodyText_halt (p : WrapperParams) {r : Record} (hv : r.valid = true) (hcode : r.icode = 0) (hfun : r.ifun = 0)
    (htr : r.trunc = false) : bodyText p r = some (padRight "halt".toList 8) := by
  have hm : mnemonicText r.icode r.ifun = some "halt".toList := by rw [hcode, hfun]; rfl
  have ho : operandText p r = [] := by simp [operandText, hcode]
  simp [bodyText, hv, hm, htr, ho]

/-- After a halt, halts print nothing and the history stays HALT. -/
theorem formatStream_halts (p : WrapperParams) {rs : List Record} (hrs : ∀ r ∈ rs, isHaltRecord r = true) :
    formatStream p .halt rs = List.replicate rs.length .nothing ∧ historyAfter .halt rs = .halt := by
  induction rs with
  | nil => exact ⟨rfl, rfl⟩
  | cons r rs ih =>
    obtain ⟨hr, hrs'⟩ := List.forall_mem_cons.mp hrs
    obtain ⟨ihStream, ihHistory⟩ := ih hrs'
    have hnext := (nextHistory_eq_halt_iff r).mpr hr
    have hsilent : Silent .halt r := .inr ⟨hr, rfl⟩
    rw [formatStream, formatRecord_silent p hsilent, formatRecord_history, historyAfter_cons, hnext, ihStream]
    exact ⟨rfl, ihHistory⟩

/-- Settles O50: the first halt of the run prints, since the history before it is not HALT, and leaves the history in
which the others print nothing. -/
theorem haltRunPrintsOneLine : Obligations.HaltRunPrintsOneLine := by
  unfold Obligations.HaltRunPrintsOneLine
  intro p h r rs after hh htr hall
  obtain ⟨⟨hv, hcode, hfun, hspan⟩, hrest⟩ := List.forall_mem_cons.mp hall
  have hfirst : (formatRecord p h r).1 = .line (lineWith r (padRight "halt".toList 8)) :=
    formatRecord_line (not_or.mpr ⟨hspan, fun hs => hh hs.2⟩) (bodyText_halt p hv hcode hfun htr)
  have hnext : nextHistory r = .halt := (nextHistory_eq_halt_iff r).mpr ((isHaltRecord_iff r).mpr ⟨hv, hcode⟩)
  obtain ⟨hstream, hhistory⟩ := formatStream_halts p (rs := rs) fun q hq =>
    (isHaltRecord_iff q).mpr ⟨(hrest q hq).1, (hrest q hq).2.1⟩
  rw [formatStream_append, formatStream, hfirst, formatRecord_history, historyAfter_cons, hnext, hstream, hhistory]
  exact ⟨rfl, rfl⟩

/-! ### What has no text (R240, R243) -/

/-- Of the valid first bytes only OP with IFUN 4 to 6 has no mnemonic (R95, R240). -/
theorem icode_ifun_of_mnemonicText_eq_none : ∀ icode ifun : Nibble, validCode icode ifun = true →
    mnemonicText icode ifun = none → icode = 6 ∧ 4 ≤ ifun.toNat ∧ ifun.toNat ≤ 6 := by decide

theorem Record.fitsFormat.valid_eq {r : Record} (hf : r.fitsFormat) : r.valid = validCode r.icode r.ifun := by
  obtain ⟨-, hv, -, -⟩ := hf
  rw [hv, Record.firstByte, validByte, hiNibble_byteOf, loNibble_byteOf]

/-- Where a truncated record would take TRUNC_BODY, only that can be wanting (R243). -/
theorem of_truncBody_eq_none {p : WrapperParams} {r : Record} {body : Text}
    (h : (if r.trunc then p.truncBody else some body) = none) : r.trunc = true ∧ p.truncBody = none := by
  split at h
  case isTrue htr => exact ⟨htr, h⟩
  case isFalse => cases h

/-- The two wants of a text: no mnemonic, or no TRUNC_BODY for a truncated record. -/
theorem of_bodyText_eq_none {p : WrapperParams} {r : Record} (hb : bodyText p r = none) :
    (r.valid = true ∧ mnemonicText r.icode r.ifun = none) ∨ (r.trunc = true ∧ p.truncBody = none) := by
  rw [bodyText] at hb
  cases hv : r.valid with
  | false =>
    rw [hv] at hb
    exact .inr (of_truncBody_eq_none hb)
  | true =>
    cases hm : mnemonicText r.icode r.ifun with
    | none => exact .inl ⟨rfl, rfl⟩
    | some m =>
      rw [hv, hm] at hb
      exact .inr (of_truncBody_eq_none hb)

/-- Settles O56: a refused record has no body, and a valid one without a mnemonic is one of the three OPs. -/
theorem wrapperRefusesOnlyForWantOfText : Obligations.WrapperRefusesOnlyForWantOfText := by
  unfold Obligations.WrapperRefusesOnlyForWantOfText
  intro p h r a hfits href
  obtain ⟨ha, hb⟩ := of_formatRecord_refused href
  refine ⟨ha, (of_bodyText_eq_none hb).imp_left fun ⟨hv, hm⟩ => ?_⟩
  exact icode_ifun_of_mnemonicText_eq_none _ _ (hfits.valid_eq ▸ hv) hm

end Sys2Proof.Machine

/-! Proofs of O54 and O55: the columns of a line, and the digits of a value. -/

namespace Sys2Proof.Machine

/-! ### Hexadecimal digits (R233, R234, R237) -/

/-- A number below 16 picks its digit from the sixteen, whatever stands for a number past them. -/
theorem hexDigit_upper_eq_getD {n : Nat} (h : n < 16) : hexDigit true n = "0123456789ABCDEF".toList.getD n ' ' := by
  revert n; decide

theorem getElem?_lower_digits {n : Nat} (h : n < 16) : "0123456789abcdef".toList[n]? = some (hexDigit false n) := by
  revert n; decide

theorem hexDigit_ne_zero (upper : Bool) {n : Nat} (h : n < 16) (hpos : n ≠ 0) : hexDigit upper n ≠ '0' := by
  revert upper n; decide

/-- The digit of place `k` stands `k` before the last one. -/
theorem getElem?_hexDigits (upper : Bool) {n k : Nat} (h : k < n) (v : Nat) :
    (hexDigits upper n v)[n - 1 - k]? = some (hexDigit upper (v / 16 ^ k % 16)) := by
  induction n generalizing k v with
  | zero => omega
  | succ n ih =>
    rw [hexDigits]
    cases k with
    | zero => simp [length_hexDigits]
    | succ k =>
      have hk : k < n := Nat.lt_of_succ_lt_succ h
      rw [List.getElem?_append_left (by rw [length_hexDigits]; omega),
        show n + 1 - 1 - (k + 1) = n - 1 - k by omega, ih hk, Nat.div_div_eq_div_mul, Nat.pow_succ']

/-- A nonzero number has a digit that is not 0: its last one, or one of the number without it. -/
theorem exists_mem_hexDigits_ne_zero (upper : Bool) {n v : Nat} (hpos : v ≠ 0) (hlt : v < 16 ^ n) :
    ∃ c ∈ hexDigits upper n v, c ≠ '0' := by
  induction n generalizing v with
  | zero => omega
  | succ n ih =>
    rw [hexDigits]
    by_cases hhigh : v / 16 = 0
    · exact ⟨_, List.mem_append_right _ (List.mem_singleton_self _), hexDigit_ne_zero upper (by omega) (by omega)⟩
    · obtain ⟨c, hc, hne⟩ := ih hhigh (by rw [Nat.pow_succ] at hlt; omega)
      exact ⟨c, List.mem_append_left _ hc, hne⟩

theorem hexBytes_cons (b : Byte) (bs : List Byte) :
    hexBytes (b :: bs) = hexDigit true (b.toNat / 16) :: hexDigit true (b.toNat % 16) :: hexBytes bs := by
  have hhigh : b.toNat / 16 % 16 = b.toNat / 16 := Nat.mod_eq_of_lt (by have := b.isLt; omega)
  rw [← hhigh]
  rfl

/-! ### No leading zero -/

/-- What `dropWhile` leaves of a list with an element it keeps: that it begins with one it keeps, and is no longer. -/
theorem dropWhile_eq_cons {α : Type} {q : α → Bool} {l : List α} (h : ∃ x ∈ l, q x = false) :
    ∃ x t, l.dropWhile q = x :: t ∧ q x = false ∧ t.length < l.length := by
  have hne : l.dropWhile q ≠ [] := by
    obtain ⟨x, hx, hq⟩ := h
    rw [Ne, List.dropWhile_eq_nil_iff]
    exact fun hall => by simp [hall x hx] at hq
  obtain ⟨x, t, hxt⟩ := List.exists_cons_of_ne_nil hne
  have hlen := (List.dropWhile_sublist q (l := l)).length_le
  have hhead := List.head?_dropWhile_not q l
  rw [hxt] at hlen hhead
  exact ⟨x, t, hxt, by simpa using hhead, hlen⟩

/-- Settles O55: a nonzero value has a digit other than 0, which the zeros before it are dropped up to. -/
theorem hexValueHasNoLeadingZero : Obligations.HexValueHasNoLeadingZero := by
  unfold Obligations.HexValueHasNoLeadingZero
  refine ⟨rfl, fun v hv => ?_⟩
  have hpos : v.toNat ≠ 0 := fun h => hv (BitVec.eq_of_toNat_eq h)
  obtain ⟨c, hc, hne⟩ := exists_mem_hexDigits_ne_zero false (n := 16) hpos v.isLt
  obtain ⟨x, t, hxt, hx, hlen⟩ := dropWhile_eq_cons (q := (· == '0')) ⟨c, hc, by simpa using hne⟩
  refine ⟨x, t, ?_, by simpa using hx, by rwa [length_hexDigits] at hlen⟩
  rw [hexValue, if_neg hv, hex16, hxt]
  rfl

/-! ### The columns of a line (R232) -/

theorem length_padRight {t : Text} {n : Nat} (h : t.length ≤ n) : (padRight t n).length = n := by
  simp [padRight, h]

theorem length_hex16 (a : Word) : (hex16 a).length = 16 := length_hexDigits false 16 a.toNat

/-- The bytes of a span of ten at most fit their column of 22. -/
theorem length_byteColumn {r : Record} (h : r.spanLen ≤ 10) :
    (padRight (hexBytes (spanBytes r)) 22).length = 22 := by
  have h10 : r.spanLen.toNat ≤ 10 := h
  exact length_padRight (by rw [length_hexBytes, length_spanBytes r h]; omega)

/-- A line is four pieces, of which all but the last have their length. -/
theorem lineWith_eq (r : Record) (body : Text) :
    lineWith r body =
      hex16 r.addr ++ (": ".toList ++ (padRight (hexBytes (spanBytes r)) 22 ++ (body ++ ['\n']))) := by
  simp only [lineWith, List.append_assoc]

theorem drop_lineWith_16 (r : Record) (body : Text) :
    (lineWith r body).drop 16 = ": ".toList ++ (padRight (hexBytes (spanBytes r)) 22 ++ (body ++ ['\n'])) := by
  rw [lineWith_eq, List.drop_left' (length_hex16 _)]

theorem drop_lineWith_18 (r : Record) (body : Text) :
    (lineWith r body).drop 18 = padRight (hexBytes (spanBytes r)) 22 ++ (body ++ ['\n']) := by
  rw [← List.drop_drop (i := 2) (j := 16), drop_lineWith_16]
  rfl

theorem drop_lineWith_40 {r : Record} (h : r.spanLen ≤ 10) (body : Text) :
    (lineWith r body).drop 40 = body ++ ['\n'] := by
  rw [← List.drop_drop (i := 22) (j := 18), drop_lineWith_18, List.drop_left' (length_byteColumn h)]

/-- Settles O54: each column is the piece that begins where the lengths of those before it end. -/
theorem lineColumnsAreFixed : Obligations.LineColumnsAreFixed := by
  unfold Obligations.LineColumnsAreFixed
  intro r body h
  have hbytes : (hexBytes (spanBytes r)).length = 2 * r.spanLen.toNat := by
    rw [length_hexBytes, length_spanBytes r h]
  refine ⟨length_hex16 _, hbytes, drop_lineWith_40 h body, ?addr, ?separator, ?column, ?padding, fun b bs => ?byte,
    fun k hk => ?digit⟩
  case addr => rw [lineWith_eq, List.take_left' (length_hex16 _)]
  case separator => rw [drop_lineWith_16]; rfl
  case column => rw [drop_lineWith_18, List.take_left' (length_byteColumn h)]
  case padding => rw [padRight, hbytes]
  case byte =>
    have hb := b.isLt
    rw [hexBytes_cons, hexDigit_upper_eq_getD (by omega), hexDigit_upper_eq_getD (by omega)]
  case digit => rw [getElem?_lower_digits (Nat.mod_lt _ (by decide)), hex16, getElem?_hexDigits false hk]

end Sys2Proof.Machine

/-! Proof of O13: an invalid first byte and its recovery slot are the little-endian bytes of the raw value. -/

namespace Sys2Proof

@[simp] theorem length_layoutINV (b0 : Byte) (slot : BitVec 56) : (layoutINV b0 slot).length = 8 := by
  simp [layoutINV]

/-- The whole encoding is the raw value's eight bytes, the first byte the lowest (R119). -/
theorem layoutINV_eq_leBytes (b0 : Byte) (slot : BitVec 56) :
    layoutINV b0 slot = leBytes 8 (slot ++ b0 : BitVec 64).toNat := by
  have hb := b0.isLt
  have hval : (slot ++ b0 : BitVec 64).toNat = b0.toNat + 256 * slot.toNat := Machine.toNat_append_byte slot b0
  have hlow : BitVec.ofNat 8 (b0.toNat + 256 * slot.toNat) = b0 :=
    BitVec.eq_of_toNat_eq (by rw [BitVec.toNat_ofNat]; omega)
  rw [hval, leBytes, hlow, show (b0.toNat + 256 * slot.toNat) / 256 = slot.toNat by omega]
  rfl

end Sys2Proof

namespace Sys2Proof.Machine

open Sys2Proof.Claims

/-- Format INV has no register byte, so both codes are 0xF whatever the span holds (R116, R221). -/
theorem raOf_INV (span : List Byte) : raOf .INV span = 0xF := rfl

theorem rbOf_INV (span : List Byte) : rbOf .INV span = 0xF := rfl

/-- D is the raw value of the whole encoding (R119). -/
theorem dOf_layoutINV (b0 : Byte) (slot : BitVec 56) : dOf .INV (layoutINV b0 slot) = slot ++ b0 := by
  rw [layoutINV_eq_leBytes]
  exact le_leBytes_toNat _

/-- R123 (3): of the raw value D has the bytes that are there. -/
theorem dOf_take_layoutINV (b0 : Byte) (slot : BitVec 56) {n : Nat} (h : n ≤ 8) :
    dOf .INV ((layoutINV b0 slot).take n) = BitVec.ofNat 64 ((slot ++ b0 : BitVec 64).toNat % 2 ^ (8 * n)) := by
  rw [layoutINV_eq_leBytes]
  exact le_take_leBytes h _

theorem spanCells_layoutINV (b0 : Byte) (slot : BitVec 56) :
    spanCells (layoutINV b0 slot) =
      #v[b0, slot.extractLsb' 0 8, slot.extractLsb' 8 8, slot.extractLsb' 16 8, slot.extractLsb' 24 8,
        slot.extractLsb' 32 8, slot.extractLsb' 40 8, slot.extractLsb' 48 8, 0, 0] := by
  rw [layoutINV, leBytes_toNat_eq_map_extractLsb']
  rfl

/-- The meaning of an invalid encoding is the delivery of layout INV, whatever the slot holds (R221). -/
theorem exec_quad (b0 : Byte) (slot : BitVec 56) (s : State) :
    exec (.quad b0 slot) s = deliver .INV false (layoutINV b0 slot) s := rfl

theorem headD_take_layoutINV (b0 : Byte) (slot : BitVec 56) {n : Nat} (hpos : 1 ≤ n) :
    ((layoutINV b0 slot).take n).headD 0 = byteOf (hiNibble b0) (loNibble b0) := by
  rw [byteOf_nibbles]
  cases n with
  | zero => omega
  | succ m => rfl

/-- Settles O13: both records are those of the one delivery, whole or cut short. -/
theorem invalidEncodingDeliversRecord : Obligations.InvalidEncodingDeliversRecord := by
  unfold Obligations.InvalidEncodingDeliversRecord
  refine ⟨fun b0 slot s h => ?whole, fun b0 slot s n hpos hle h => ?short⟩
  case whole =>
    have hlen := length_layoutINV b0 slot
    have hhead : (layoutINV b0 slot).headD 0 = byteOf (hiNibble b0) (loNibble b0) := (byteOf_nibbles b0).symm
    rw [exec_quad, deliver_whole .INV false (by omega) (by omega), recordOf_of_headD _ _ _ _ hhead, raOf_INV, rbOf_INV,
      dOf_layoutINV, spanCells_layoutINV, hlen]
    rfl
  case short =>
    have hlen := length_layoutINV b0 slot
    have hhead := headD_take_layoutINV b0 slot hpos
    rw [exec_quad, deliver_short .INV false hpos (by omega) h, recordOf_of_headD _ _ _ _ hhead, raOf_INV, rbOf_INV,
      dOf_take_layoutINV _ _ (by omega), List.length_take_of_le (by omega)]
    rfl

end Sys2Proof.Machine

/-! Proofs of O29, O43 and O51: the conditions in STATUS, what ends IDLE and EXH, and what the reset leaves. -/

namespace Sys2Proof.Machine

open Sys2Proof.Claims

/-! ### The conditions (R271) -/

/-- The condition of a cause code. -/
def conditionOfCode : Nat → Condition
  | 1 => .invalid
  | 2 => .trunc
  | 3 => .eos
  | 4 => .cmdErr
  | _ => .none

/-- The condition that a STATUS bit records. -/
def conditionOfBit : Option Nat → Condition
  | some 4 => .invalid
  | some 3 => .trunc
  | some 2 => .eos
  | some 6 => .cmdErr
  | _ => .none

theorem conditionOfCode_conditionCode : Function.LeftInverse conditionOfCode conditionCode := fun c => by
  cases c <;> rfl

theorem conditionOfBit_conditionBit : Function.LeftInverse conditionOfBit conditionBit := fun c => by
  cases c <;> rfl

/-- Each condition is read at its bit of STATUS (R32). -/
theorem statusWord_conditionBit (s : State) {c : Condition} {b : Nat} (h : conditionBit c = some b) :
    (statusWord s).getLsbD b = conditionHolds c s := by
  obtain ⟨-, -, heos, htrunc, hinvalid, -, hcmdErr, -⟩ := statusWord_bits s
  cases c with
  | none => cases h
  | invalid => cases h; exact hinvalid
  | trunc => cases h; exact htrunc
  | eos => cases h; exact heos
  | cmdErr => cases h; exact hcmdErr

/-- No condition goes with a delivered record exactly when STATUS shows neither of its two flags. -/
theorem conditionHolds_none_iff {s : State} (hd : s.statusDescribesRecord) (hv : s.recValid = true) :
    conditionHolds .none s = true ↔ s.record.valid = true ∧ s.record.trunc = false := by
  obtain ⟨htrunc, hinvalid⟩ := hd
  simp [conditionHolds, htrunc, hinvalid, hv]

/-- Settles O29: the read of STATUS answers the word whose bits the conditions are; a code, and likewise a bit, gives
its condition back. -/
theorem conditionsStandInStatus : Obligations.ConditionsStandInStatus := by
  unfold Obligations.ConditionsStandInStatus
  refine ⟨fun s hb => ⟨statusWord s, readsAs_of_quiet hb .status rfl rfl, fun c b => statusWord_conditionBit s⟩,
    fun s => conditionHolds_none_iff, ⟨rfl, rfl, rfl, rfl, rfl⟩, ?distinct⟩
  rintro c c' (hcode | hbit)
  · exact conditionOfCode_conditionCode.injective hcode
  · exact conditionOfBit_conditionBit.injective hbit

/-! ### What leaves IDLE and EXH (R272, R277, R285) -/

/-- R285: nothing but a host action moves the block. -/
theorem step_without_action {s : State} (h : s.host = []) : step s = .next s := by
  rw [step, h]

/-- Settles O43: of the effects of a step only those of a running stream, reset and START change PHASE. -/
theorem onlyStartOrResetLeavesIdleAndExh : Obligations.OnlyStartOrResetLeavesIdleAndExh := by
  unfold Obligations.OnlyStartOrResetLeavesIdleAndExh
  refine ⟨fun s t hp h hne => ?_, fun s => step_without_action⟩
  have hn := not_streaming hp
  cases step_effect h with
  | leaves hl => exact absurd hl.phase hne
  | reset hs hh ht => exact ⟨_, _, hh, .inl rfl⟩
  | start v hs hh hb h0 hl ht => exact ⟨_, _, hh, .inr ⟨v, rfl, h0⟩⟩
  | record v hs hh h0 h1 hst hrest hd => exact absurd hst (by simp [hn])
  | ended v hs hh hst hrest he => exact absurd hst (by simp [hn])

/-! ### What reset leaves (R302) -/

/-- The wrapper neither begins a stream nor formats a record at a reset. -/
theorem wrapperStep_reset (p : WrapperParams) (s t : State) (h : History) :
    wrapperStep p .reset s t h = (none, h) := wrapperStep_keeps p .reset s t h rfl rfl

/-- Settles O51: the reset input builds its state around BUF and is no STEP; START begins a stream. -/
theorem resetLeavesBufferAndHistory : Obligations.ResetLeavesBufferAndHistory := by
  unfold Obligations.ResetLeavesBufferAndHistory
  refine ⟨fun p s h => ⟨_, issue_reset s, fun a => ?_, wrapperStep_reset p s _ h⟩,
    fun p s h hb hl => ⟨_, issue_start s hb hl, wrapperStep_begins p _ s _ h (beginsStream_start hb)⟩⟩
  rw [resetBlock_buf]

end Sys2Proof.Machine
